-- ==== Sys2Proof/Word.lean ====
section
/-! DEFINITION. The two kinds of data the block handles: a value of the numeric domain, and the header byte. -/

namespace Sys2Proof

/-- A value of the numeric domain NUM, by its code (00_scope.md R11). The domain is OPEN, so nothing is assumed of the
codes: the machine computes on them with the functions of a `Numerics` record only, never with the arithmetic of `Rat`.
Every domain with countably many values, hence every hardware format, can be coded so (notes/assumptions/1.md). -/
abbrev NUM := Rat

/-- The 8-bit command header, the only bit-level object of the spec (00_scope.md R15, 30_encoding.md R62). -/
abbrev Header := BitVec 8

end Sys2Proof
end

