-- ==== Sys2Proof/Config.lean ====
section
/-! DEFINITION. What an implementation fixes: the numeric record, the clamp parameters, and the free values.
They are gathered in `Sys2Proof.Machine.Build` (Machine/Arith.lean), the parameter of the machine. -/

namespace Sys2Proof

/-- The record of 00_scope.md R11: the functions every formula of the spec is written over. Each result depends on
the operands alone. -/
structure Numerics (α : Type) where
  /-- The literals of the rules. -/
  lit : Rat → α
  /-- The constant pi. -/
  pi : α
  add : α → α → α
  sub : α → α → α
  mul : α → α → α
  div : α → α → α
  /-- The order the clamps and the sample-rate check use. -/
  le : α → α → Bool
  sqrt : α → α
  sin : α → α
  cos : α → α
  /-- `pow10 v` is 10 raised to `v`. -/
  pow10 : α → α
deriving Inhabited

/-- The two OPEN clamp parameters of 00_scope.md R9 (decisions D9, D10), coded by natural numbers so that every value
of this type is a legal pair: `Q_FLOOR` is positive and `NYQ_FRAC` lies strictly between 0 and 1
(DEDUCED from 41_filter_designer.md R102, R104, R113: notes/assumptions/4.md). -/
structure ClampParams where
  qNum : Nat
  qDen : Nat
  nyqNum : Nat
  nyqGap : Nat
deriving DecidableEq, Repr, Inhabited

/-- `Q_FLOOR`, "a small positive floor" (41_filter_designer.md R102). -/
def ClampParams.qFloor (P : ClampParams) : Rat := ((P.qNum : Rat) + 1) / ((P.qDen : Rat) + 1)

/-- `NYQ_FRAC`, "a safe fraction of the Nyquist limit" (41_filter_designer.md R102). -/
def ClampParams.nyqFrac (P : ClampParams) : Rat :=
  ((P.nyqNum : Rat) + 1) / ((P.nyqNum : Rat) + (P.nyqGap : Rat) + 2)

/-- The defaults of 00_scope.md R9: `Q_FLOOR = 1/100`, `NYQ_FRAC = 9/10`. -/
def ClampParams.default : ClampParams := { qNum := 0, qDen := 99, nyqNum := 8, nyqGap := 0 }

/-- One of the two command ports (30_encoding.md R60). -/
inductive Port where
  | audio
  | ctrl
deriving DecidableEq, Repr, Inhabited

/-- The clamp parameters of this build: OPEN, so free (notes/assumptions/4.md). -/
opaque Config.clamps : ClampParams

/-- The numeric instance of this build: OPEN, so free, and nothing is assumed of its functions but that each result
depends on the operands alone (00_scope.md R9, R11, R13, notes/assumptions/1.md). -/
opaque Config.numerics : Numerics NUM

/-- What FS powered up as in this machine: unspecified, so free (93_implementation_defined.md U4,
notes/assumptions/5.md). -/
opaque Config.powerOnFs : NUM

end Sys2Proof
end

