-- ==== Sys2Proof/Syntax.lean ====
section
/-! DEFINITION. Commands as they arrive on a port, and the eleven operations they name. -/

namespace Sys2Proof

/-- A section index: 0 bass, 1 mid, 2 treble (00_scope.md R16, 10_state.md R26). -/
inductive Band where
  | bass
  | mid
  | treble
deriving DecidableEq, Repr

/-- A command: a header and its operands (30_encoding.md R62). -/
structure Command where
  header : Header
  ops : List NUM
deriving DecidableEq, Repr

/-- The operations of 30_encoding.md R65, one constructor per row of the operation map, each with exactly the operands
of 30_encoding.md R64 in that rule's order. -/
inductive Instr where
  /-- BQ.RESET s (40_biquad_section.md R81). -/
  | bqReset (b : Band)
  /-- BQ.SETC s, ff, c1, c2, d1, d2 (40_biquad_section.md R82). -/
  | bqSetc (b : Band) (ff c1 c2 d1 d2 : NUM)
  /-- BQ.PROC s, x (40_biquad_section.md R83). -/
  | bqProc (b : Band) (x : NUM)
  /-- FD.LSH sampleRate, centerFrequency, Q, gainDecibels (41_filter_designer.md R107). -/
  | fdLsh (fs f q g : NUM)
  /-- FD.PEAK, operands as FD.LSH (41_filter_designer.md R109). -/
  | fdPeak (fs f q g : NUM)
  /-- FD.HSH, operands as FD.LSH (41_filter_designer.md R108). -/
  | fdHsh (fs f q g : NUM)
  /-- EQ.INIT sampleRate (42_three_band_equalizer.md R141). -/
  | eqInit (fs : NUM)
  /-- EQ.SETBASS pot (42_three_band_equalizer.md R144). -/
  | eqSetBass (pot : NUM)
  /-- EQ.SETMID pot (42_three_band_equalizer.md R145). -/
  | eqSetMid (pot : NUM)
  /-- EQ.SETTREB pot (42_three_band_equalizer.md R146). -/
  | eqSetTreb (pot : NUM)
  /-- EQ.PROC x (42_three_band_equalizer.md R142). -/
  | eqProc (x : NUM)
deriving DecidableEq, Repr

end Sys2Proof
end

