-- ==== Sys2Proof/WellFormed.lean ====
section
/-! DEFINITION. The operation map of 30_encoding.md R65 as a list of match and mask rows, and what it says of a
command: whether its header is one of the seventeen, how many operands it takes and which port accepts it. Every term
of `Instr` is well formed by its type (30_encoding.md R67), so the checks are on commands; Decode.lean reads headers
field by field and does not use this file's rows. -/

namespace Sys2Proof

/-- One row of the operation map of 30_encoding.md R65. -/
structure MapRow where
  mnemonic : String
  pat : Header
  mask : Header
  /-- The values the row allows the field SEL. -/
  sels : List Nat
  port : Port
  /-- The operand count of 30_encoding.md R64. -/
  arity : Nat
deriving DecidableEq, Repr

/-- The eleven rows of 30_encoding.md R65. -/
def operationMap : List MapRow :=
  [ ⟨"BQ.RESET", 0x10, 0xFC, [0, 1, 2], .ctrl, 0⟩,
    ⟨"BQ.SETC", 0x20, 0xFC, [0, 1, 2], .ctrl, 5⟩,
    ⟨"BQ.PROC", 0x30, 0xFC, [0, 1, 2], .audio, 1⟩,
    ⟨"FD.LSH", 0x40, 0xFF, [0], .ctrl, 4⟩,
    ⟨"FD.PEAK", 0x50, 0xFF, [0], .ctrl, 4⟩,
    ⟨"FD.HSH", 0x60, 0xFF, [0], .ctrl, 4⟩,
    ⟨"EQ.INIT", 0x80, 0xFF, [0], .ctrl, 1⟩,
    ⟨"EQ.SETBASS", 0x90, 0xFF, [0], .ctrl, 1⟩,
    ⟨"EQ.SETMID", 0x91, 0xFF, [1], .ctrl, 1⟩,
    ⟨"EQ.SETTREB", 0x92, 0xFF, [2], .ctrl, 1⟩,
    ⟨"EQ.PROC", 0xC0, 0xFF, [0], .audio, 1⟩ ]

/-- A header selects a row when the masked bits match and its SEL is one the row allows (30_encoding.md R65). -/
def MapRow.selects (r : MapRow) (h : Header) : Bool :=
  h &&& r.mask == r.pat && r.sels.contains (h.toNat % 4)

/-- The row a header selects, if any. -/
def rowOf (h : Header) : Option MapRow := operationMap.find? (·.selects h)

/-- The header is one of the seventeen valid ones (30_encoding.md R65, R66). -/
def Command.headerValid (c : Command) : Bool := (rowOf c.header).isSome

/-- The command has the operand count of its header (30_encoding.md R67). -/
def Command.operandsOk (c : Command) : Bool :=
  (rowOf c.header).any fun r => c.ops.length == r.arity

/-- The port is the one that accepts the header (30_encoding.md R68). -/
def Command.portOk (c : Command) (p : Port) : Bool :=
  (rowOf c.header).any fun r => r.port == p

/-- A command the block accepts on port `p`. -/
def Command.wellFormed (c : Command) (p : Port) : Bool :=
  c.headerValid && c.operandsOk && c.portOk p

end Sys2Proof
end

