-- ==== Sys2Proof/Decode.lean ====
section
/-! DEFINITION. From a command to the operation it names, and back. The decoder reads the three header fields of
30_encoding.md R63 and refuses by name; the encoder is written from the same map. -/

namespace Sys2Proof

/-- Why a command names no operation (60_exceptions.md R172, the three reasons decode raises). -/
inductive DecodeError where
  /-- The header byte is not among the seventeen valid ones (30_encoding.md R66). -/
  | reservedHeader
  /-- The operand count does not match the header (30_encoding.md R67). -/
  | malformedOperands
  /-- A valid command on the port that does not accept it (30_encoding.md R68). -/
  | wrongPort
deriving DecidableEq, Repr

/-- `OP = h[7:4]` (30_encoding.md R63). -/
def Header.op (h : Header) : Nat := h.toNat / 16

/-- `RSV = h[3:2]` (30_encoding.md R63). -/
def Header.rsv (h : Header) : Nat := h.toNat / 4 % 4

/-- `SEL = h[1:0]` (30_encoding.md R63). -/
def Header.sel (h : Header) : Nat := h.toNat % 4

/-- The section a SEL value names; 3 names nothing (20_memory.md R42). -/
def Band.ofSel : Nat → Option Band
  | 0 => some .bass
  | 1 => some .mid
  | 2 => some .treble
  | _ => none

/-- The SEL value of a section. -/
def Band.toSel : Band → Nat
  | .bass => 0
  | .mid => 1
  | .treble => 2

/-- An operation named by a header, its operands still to come. -/
inductive Opcode where
  | bqReset (b : Band)
  | bqSetc (b : Band)
  | bqProc (b : Band)
  | fdLsh
  | fdPeak
  | fdHsh
  | eqInit
  | eqSetBass
  | eqSetMid
  | eqSetTreb
  | eqProc
deriving DecidableEq, Repr

/-- The operation codes whose SEL must be zero (30_encoding.md R63, R65). -/
def Opcode.ofUnselected : Nat → Option Opcode
  | 4 => some .fdLsh
  | 5 => some .fdPeak
  | 6 => some .fdHsh
  | 8 => some .eqInit
  | 12 => some .eqProc
  | _ => none

/-- The operation that OP and SEL name (30_encoding.md R65). -/
def Opcode.ofFields (op sel : Nat) : Option Opcode :=
  match op with
  | 1 => (Band.ofSel sel).map .bqReset
  | 2 => (Band.ofSel sel).map .bqSetc
  | 3 => (Band.ofSel sel).map .bqProc
  | 9 =>
    match sel with
    | 0 => some .eqSetBass
    | 1 => some .eqSetMid
    | 2 => some .eqSetTreb
    | _ => none
  | n => if sel = 0 then Opcode.ofUnselected n else none

/-- The operation a header names; none for a reserved header (30_encoding.md R66). -/
def Opcode.ofHeader (h : Header) : Option Opcode :=
  if h.rsv = 0 then Opcode.ofFields h.op h.sel else none

/-- How many operands an operation takes (30_encoding.md R64, R69). -/
def Opcode.arity : Opcode → Nat
  | .bqReset _ => 0
  | .bqSetc _ => 5
  | .bqProc _ => 1
  | .fdLsh | .fdPeak | .fdHsh => 4
  | .eqInit | .eqSetBass | .eqSetMid | .eqSetTreb => 1
  | .eqProc => 1

/-- The port that accepts an operation (30_encoding.md R68). -/
def Opcode.port : Opcode → Port
  | .bqProc _ | .eqProc => .audio
  | .bqReset _ | .bqSetc _ | .fdLsh | .fdPeak | .fdHsh | .eqInit | .eqSetBass | .eqSetMid | .eqSetTreb => .ctrl

/-- The operation with its operands in the order of 30_encoding.md R64; none when their number is wrong (R67). -/
def Opcode.apply : Opcode → List NUM → Option Instr
  | .bqReset b, [] => some (.bqReset b)
  | .bqSetc b, [ff, c1, c2, d1, d2] => some (.bqSetc b ff c1 c2 d1 d2)
  | .bqProc b, [x] => some (.bqProc b x)
  | .fdLsh, [fs, f, q, g] => some (.fdLsh fs f q g)
  | .fdPeak, [fs, f, q, g] => some (.fdPeak fs f q g)
  | .fdHsh, [fs, f, q, g] => some (.fdHsh fs f q g)
  | .eqInit, [fs] => some (.eqInit fs)
  | .eqSetBass, [pot] => some (.eqSetBass pot)
  | .eqSetMid, [pot] => some (.eqSetMid pot)
  | .eqSetTreb, [pot] => some (.eqSetTreb pot)
  | .eqProc, [x] => some (.eqProc x)
  | _, _ => none

/-- The operation a command on port `p` names, or why it names none. The checks come in the order header, operand
count, port, since 30_encoding.md R68 speaks of a valid command on the wrong port (DEDUCED, safe:
notes/assumptions/10.md). -/
def decode (p : Port) (c : Command) : Except DecodeError Instr :=
  match Opcode.ofHeader c.header with
  | none => .error .reservedHeader
  | some o =>
    match o.apply c.ops with
    | none => .error .malformedOperands
    | some i => if o.port = p then .ok i else .error .wrongPort

/-- The operation code of an instruction. -/
def Instr.opcode : Instr → Opcode
  | .bqReset b => .bqReset b
  | .bqSetc b .. => .bqSetc b
  | .bqProc b _ => .bqProc b
  | .fdLsh .. => .fdLsh
  | .fdPeak .. => .fdPeak
  | .fdHsh .. => .fdHsh
  | .eqInit _ => .eqInit
  | .eqSetBass _ => .eqSetBass
  | .eqSetMid _ => .eqSetMid
  | .eqSetTreb _ => .eqSetTreb
  | .eqProc _ => .eqProc

/-- The port an instruction is accepted on (30_encoding.md R68, R71). -/
def Instr.port (i : Instr) : Port := i.opcode.port

/-- The operands of an instruction, in the order of 30_encoding.md R64. -/
def Instr.operands : Instr → List NUM
  | .bqReset _ => []
  | .bqSetc _ ff c1 c2 d1 d2 => [ff, c1, c2, d1, d2]
  | .bqProc _ x => [x]
  | .fdLsh fs f q g => [fs, f, q, g]
  | .fdPeak fs f q g => [fs, f, q, g]
  | .fdHsh fs f q g => [fs, f, q, g]
  | .eqInit fs => [fs]
  | .eqSetBass pot => [pot]
  | .eqSetMid pot => [pot]
  | .eqSetTreb pot => [pot]
  | .eqProc x => [x]

/-- The header byte of an operation (30_encoding.md R65). -/
def Opcode.header : Opcode → Header
  | .bqReset b => BitVec.ofNat 8 (0x10 + b.toSel)
  | .bqSetc b => BitVec.ofNat 8 (0x20 + b.toSel)
  | .bqProc b => BitVec.ofNat 8 (0x30 + b.toSel)
  | .fdLsh => 0x40
  | .fdPeak => 0x50
  | .fdHsh => 0x60
  | .eqInit => 0x80
  | .eqSetBass => 0x90
  | .eqSetMid => 0x91
  | .eqSetTreb => 0x92
  | .eqProc => 0xC0

/-- The command that names an instruction (30_encoding.md R64, R65). -/
def encode (i : Instr) : Command := { header := i.opcode.header, ops := i.operands }

/-- The command and port a word of the operation map stands for: the word is the header byte, which is all the bits
the map gives a row, and every operand is zero (notes/assumptions/14.md). A reserved header, which names no port, is
laid on CTRL with no operands. -/
def tableCommand (w : Nat) : Port × Command :=
  let h : Header := BitVec.ofNat 8 w
  match Opcode.ofHeader h with
  | none => (.ctrl, { header := h, ops := [] })
  | some o => (o.port, { header := h, ops := List.replicate o.arity 0 })

/-- The instruction the decoder reads from the word `w` of the operation map. The header is the low byte of `w`;
`nbits` is 8 for every row. -/
def decodeTableWord (_nbits w : Nat) : Option Instr :=
  match decode (tableCommand w).1 (tableCommand w).2 with
  | .ok i => some i
  | .error _ => none

end Sys2Proof
end

