-- ==== Sys2Proof/Machine/State.lean ====
section
/-! DEFINITION. The state of the block as plain data: the 22 registers of 10_state.md R20, written once for any
numeric domain, and the position of a run in the two command streams. What 10_state.md R34 calls a parameter of the step
relation (the numeric record, the clamp parameters, the interleaving) is no field here: it is `Build`
(Machine/Arith.lean). -/

namespace Sys2Proof.Machine

/-- One coefficient bank, in the order of `setCoefficients(ff, c1, c2, d1, d2)` (10_state.md R21). -/
structure Coeffs (α : Type) where
  /-- FF, `b0/a0`. -/
  ff : α
  /-- C1, `b1/a0`. -/
  c1 : α
  /-- C2, `b2/a0`. -/
  c2 : α
  /-- D1, `a1/a0`. -/
  d1 : α
  /-- D2, `a2/a0`. -/
  d2 : α
deriving DecidableEq, Repr

/-- One BiquadSection: a coefficient bank and two delay registers, of which `z1` is the newer output
(10_state.md R24, R27). -/
structure BiquadSection (α : Type) where
  coef : Coeffs α
  z1 : α
  z2 : α
deriving DecidableEq, Repr

/-- The whole architectural state: three sections and the sample-rate register (10_state.md R20). -/
structure Regs (α : Type) where
  /-- Section 0. -/
  bass : BiquadSection α
  /-- Section 1. -/
  mid : BiquadSection α
  /-- Section 2. -/
  treble : BiquadSection α
  /-- FS, in hertz, one Num (10_state.md R28). -/
  fs : α
  /-- Whether FS has ever been written: it "holds no value" until then, whatever it powered up as (10_state.md R35,
  60_exceptions.md R172, notes/assumptions/5.md). -/
  fsWritten : Bool
deriving DecidableEq, Repr

/-- What is left of an EQ.PROC whose first sub-step has run (20_memory.md R56, 30_encoding.md R70). -/
inductive EqProcRest where
  /-- Next: BQ.PROC 1 on the output `u` of section 0. -/
  | mid (u : NUM)
  /-- Next: BQ.PROC 2 on the output `v` of section 1. -/
  | treble (v : NUM)
deriving DecidableEq, Repr

/-- What is left of an EQ.INIT whose first sub-step has run (20_memory.md R56, 30_encoding.md R70). -/
inductive EqInitRest where
  /-- Next: BQ.RESET 0. -/
  | bass
  /-- Next: BQ.RESET 1. -/
  | mid
  /-- Next: BQ.RESET 2. -/
  | treble
deriving DecidableEq, Repr

/-- One command port within a run: the commands presented and not yet begun, the rest of a composite operation in
progress, and the responses returned so far (20_memory.md R57, 70_reset_and_hazards.md R195). The model's own
bookkeeping, not registers of the block: notes/assumptions/6.md. -/
structure PortState (ρ : Type) where
  /-- Oldest first. -/
  queue : List Command
  busy : Option ρ
  /-- Oldest first; one response for each command completed. -/
  responses : List (List NUM)
deriving DecidableEq, Repr

/-- The machine: the block's registers, and where the run stands. -/
structure State where
  /-- The architectural state (10_state.md R20). -/
  regs : Regs NUM
  /-- Port AUDIO; its only composite is EQ.PROC. -/
  audio : PortState EqProcRest
  /-- Port CTRL; its only composite that needs more than one step is EQ.INIT. -/
  ctrl : PortState EqInitRest
deriving DecidableEq, Repr

/-- Faults. The block has none: "No exception channel is available in the real-time path", and no operation raises an
exception or stops (60_exceptions.md R160, R167). The type is empty, so nothing can raise one. -/
inductive Fault where
deriving DecidableEq, Repr

/-- The outcomes for which the spec gives an operation no meaning (60_exceptions.md R172). All are safe: the model
declines the run, so no claim can rest on what the hardware does there. -/
inductive Refusal where
  /-- Raised by `exec` for an instruction that has no meaning yet: none is left. Safe. -/
  | notModelled (mnemonic : String)
  /-- Raised by fetch for a header byte that is not among the seventeen (30_encoding.md R66). Safe. -/
  | reservedHeader
  /-- Raised by fetch for a wrong operand count (30_encoding.md R67). Safe. -/
  | malformedOperands
  /-- Raised by fetch for a valid command on the wrong port (30_encoding.md R68). Safe. -/
  | wrongPort
  /-- Raised by FD.LSH, FD.PEAK, FD.HSH, EQ.INIT, and by the designer inside a setter, when the sample rate is not
  positive (41_filter_designer.md R101). Safe. -/
  | nonpositiveSampleRate
  /-- Raised by EQ.SETBASS, EQ.SETMID, EQ.SETTREB while FS has never been written (42_three_band_equalizer.md R144,
  60_exceptions.md R172). Safe. -/
  | setterBeforeInit
deriving DecidableEq, Repr

/-- A section at power-on: coefficients and delay registers zero (10_state.md R35). -/
def BiquadSection.powerOn {α : Type} (N : Numerics α) : BiquadSection α :=
  { coef := { ff := N.lit 0, c1 := N.lit 0, c2 := N.lit 0, d1 := N.lit 0, d2 := N.lit 0 }
    z1 := N.lit 0
    z2 := N.lit 0 }

/-- The registers at power-on: FS has not been written, and `fs` is what it powered up as (10_state.md R35,
93_implementation_defined.md U4). -/
def Regs.powerOn {α : Type} (N : Numerics α) (fs : α) : Regs α :=
  { bass := .powerOn N, mid := .powerOn N, treble := .powerOn N, fs := fs, fsWritten := false }

/-- The machine right after power-on reset, on any numeric instance and with any content of FS (10_state.md R35, 70_reset_and_hazards.md R180,
R182): no command has been presented and no port has work. -/
def State.resetOn (N : Numerics NUM) (fs : NUM) : State :=
  { regs := .powerOn N fs
    audio := { queue := [], busy := none, responses := [] }
    ctrl := { queue := [], busy := none, responses := [] } }

/-- The machine right after power-on reset. -/
def State.reset : State := State.resetOn Config.numerics Config.powerOnFs

end Sys2Proof.Machine
end

