-- ==== Sys2Proof/Machine/Arith.lean ====
section
/-! DEFINITION. What the machine is parameterised by, and the two comparisons built on a numeric record. -/

namespace Sys2Proof

/-- Which port moves when both have work, by the state the run has reached: free (20_memory.md R49, R50,
notes/assumptions/7.md). It stands here because its type names the state. -/
opaque Config.turn : Machine.State → Port

namespace Machine

/-- The parameters of the step relation (10_state.md R34): the numeric instance, the clamp parameters and the
interleaving of the two ports. The band constants, which are fixed, stand in Operands.lean. -/
structure Build where
  /-- NUM (00_scope.md R9, R11). -/
  num : Numerics NUM
  /-- Q_FLOOR and NYQ_FRAC (00_scope.md R9). -/
  clamps : ClampParams
  /-- The port that moves where both have work (20_memory.md R49). -/
  turn : State → Port

/-- `max(a, b)`: "if le a b then b else a" (00_scope.md R11). -/
def maxN {α : Type} (N : Numerics α) (a b : α) : α := if N.le a b then b else a

/-- `min(a, b)`: "if le a b then a else b" (00_scope.md R11). -/
def minN {α : Type} (N : Numerics α) (a b : α) : α := if N.le a b then a else b

end Machine

/-- This machine's own parameters, all of them free. -/
def Config.build : Machine.Build :=
  { num := Config.numerics, clamps := Config.clamps, turn := Config.turn }

end Sys2Proof
end

