-- ==== Sys2Proof/Machine/Ops.lean ====
section
/-! DEFINITION. The named operations over the registers and the two ports. The block takes no exception and returns
from none (60_exceptions.md R160, R167, R168), so there is no such operation here. -/

namespace Sys2Proof.Machine

/-! ### Registers -/

/-- The registers of section `b`. -/
def Regs.sec {α : Type} (r : Regs α) : Band → BiquadSection α
  | .bass => r.bass
  | .mid => r.mid
  | .treble => r.treble

/-- Replace the registers of section `b`. -/
def Regs.setSec {α : Type} (r : Regs α) (b : Band) (c : BiquadSection α) : Regs α :=
  match b with
  | .bass => { r with bass := c }
  | .mid => { r with mid := c }
  | .treble => { r with treble := c }

/-- The one indivisible 5-tuple write of a coefficient bank (20_memory.md R47). -/
def Regs.setCoef {α : Type} (r : Regs α) (b : Band) (k : Coeffs α) : Regs α :=
  r.setSec b { r.sec b with coef := k }

/-- Write both delay registers of a section in one step. -/
def Regs.setDelays {α : Type} (r : Regs α) (b : Band) (z1 z2 : α) : Regs α :=
  r.setSec b { r.sec b with z1 := z1, z2 := z2 }

/-- Write FS, which holds a value from then on (10_state.md R28, 70_reset_and_hazards.md R181). -/
def Regs.setFs {α : Type} (r : Regs α) (fs : α) : Regs α := { r with fs := fs, fsWritten := true }

/-- The value FS holds; none while it "holds no value", which is until it is first written (10_state.md R35). -/
def Regs.rate {α : Type} (r : Regs α) : Option α := if r.fsWritten then some r.fs else none

/-- A coefficient tuple as the five results of a response, in the order of 30_encoding.md R64. -/
def Coeffs.toList {α : Type} (k : Coeffs α) : List α := [k.ff, k.c1, k.c2, k.d1, k.d2]

/-! ### Ports -/

/-- The command is complete: its response is returned and nothing of it is left (30_encoding.md R60). -/
def PortState.finish {ρ : Type} (p : PortState ρ) (res : List NUM) : PortState ρ :=
  { p with busy := none, responses := p.responses ++ [res] }

/-- A composite operation has run one sub-step and goes on with `rest` (30_encoding.md R70). -/
def PortState.goOn {ρ : Type} (p : PortState ρ) (rest : ρ) : PortState ρ := { p with busy := some rest }

/-- The port has something to do: a composite in progress or a command waiting. -/
def PortState.hasWork {ρ : Type} (p : PortState ρ) : Bool := p.busy.isSome || !p.queue.isEmpty

/-- The state after a command of port AUDIO completes with registers `r` and results `res`. -/
def State.finishAudio (s : State) (r : Regs NUM) (res : List NUM) : State :=
  { s with regs := r, audio := s.audio.finish res }

/-- The state after a command of port CTRL completes with registers `r` and results `res`. -/
def State.finishCtrl (s : State) (r : Regs NUM) (res : List NUM) : State :=
  { s with regs := r, ctrl := s.ctrl.finish res }

/-- The state after one sub-step of an EQ.PROC that goes on. -/
def State.goOnAudio (s : State) (r : Regs NUM) (rest : EqProcRest) : State :=
  { s with regs := r, audio := s.audio.goOn rest }

/-- The state after one sub-step of an EQ.INIT that goes on. -/
def State.goOnCtrl (s : State) (r : Regs NUM) (rest : EqInitRest) : State :=
  { s with regs := r, ctrl := s.ctrl.goOn rest }

/-! ### Which port moves -/

/-- Whether port `p` has something to do. -/
def State.hasWork (s : State) : Port → Bool
  | .audio => s.audio.hasWork
  | .ctrl => s.ctrl.hasWork

/-- The port that moves in the next step; none when neither has work (20_memory.md R49, R50). -/
def State.mover (B : Build) (s : State) : Option Port :=
  match s.audio.hasWork, s.ctrl.hasWork with
  | false, false => none
  | true, false => some .audio
  | false, true => some .ctrl
  | true, true => some (B.turn s)

/-! ### The command at the head of a port's stream -/

/-- The refusal a decoding error becomes (60_exceptions.md R172). -/
def refusalOf : DecodeError → Refusal
  | .reservedHeader => .reservedHeader
  | .malformedOperands => .malformedOperands
  | .wrongPort => .wrongPort

/-- The commands waiting on port `p`. -/
def State.queueOf (s : State) : Port → List Command
  | .audio => s.audio.queue
  | .ctrl => s.ctrl.queue

/-- Replace the commands waiting on port `p`. -/
def State.setQueue (s : State) (p : Port) (q : List Command) : State :=
  match p with
  | .audio => { s with audio := { s.audio with queue := q } }
  | .ctrl => { s with ctrl := { s.ctrl with queue := q } }

/-- Nothing of a composite is left on port `p`. -/
def State.clearBusy (s : State) (p : Port) : State :=
  match p with
  | .audio => { s with audio := { s.audio with busy := none } }
  | .ctrl => { s with ctrl := { s.ctrl with busy := none } }

/-- The port that is not `p`. -/
def otherPort : Port → Port
  | .audio => .ctrl
  | .ctrl => .audio

/-- Nothing waits on port `p` and nothing of a composite is left there. -/
def State.idle (s : State) (p : Port) : State := (s.clearBusy p).setQueue p []

/-- Present `c` as the very next command of the run: at the head of the stream of port `p`, with nothing of a composite
left there, and with the other port idle, since no state decides which of two ports with work moves. -/
def State.presentNext (s : State) (p : Port) (c : Command) : State :=
  ((s.idle (otherPort p)).clearBusy p).setQueue p (c :: s.queueOf p)

end Sys2Proof.Machine
end

