-- ==== Sys2Proof/Machine/Operands.lean ====
section
/-! DEFINITION. The constants and the clamps every operation draws its operands from: the band table of
10_state.md R26, the designer's clamps of 41_filter_designer.md R102 and the gain law of
42_three_band_equalizer.md R143. There are no flags (10_state.md R30), hence no file of flag computations. -/

namespace Sys2Proof.Machine

/-- The three filter types (10_state.md R26). -/
inductive Shape where
  | lowShelf
  | peaking
  | highShelf
deriving DecidableEq, Repr

/-- `F0[s]`, hertz (10_state.md R26). -/
def bandF0 : Band → Rat
  | .bass => 80
  | .mid => 800
  | .treble => 4000

/-- `QB[s]` (10_state.md R26). -/
def bandQ : Band → Rat
  | .bass => 707 / 1000
  | .mid => 1
  | .treble => 707 / 1000

/-- `MAXDB[s]`, decibels (10_state.md R26). -/
def bandMaxDb : Band → Rat
  | .bass => 15
  | .mid => 12
  | .treble => 15

/-- `TYPE[s]` (10_state.md R26). -/
def bandShape : Band → Shape
  | .bass => .lowShelf
  | .mid => .peaking
  | .treble => .highShelf

variable {α : Type}

/-- `fs <= 0`, where no operation that takes a sample rate has a meaning (41_filter_designer.md R101). -/
def rateBad (N : Numerics α) (fs : α) : Bool := N.le fs (N.lit 0)

/-- `Qc := max(Q, Q_FLOOR)` (41_filter_designer.md R102). -/
def clampQ (N : Numerics α) (P : ClampParams) (q : α) : α := maxN N q (N.lit P.qFloor)

/-- `F_FLOOR`, fixed at 0 (00_scope.md R9, notes/assumptions/16.md). -/
def fFloor : Rat := 0

/-- `fc := min(max(f, F_FLOOR), NYQ_FRAC * (fs / 2))` (41_filter_designer.md R102). -/
def clampF (N : Numerics α) (P : ClampParams) (fs f : α) : α :=
  minN N (maxN N f (N.lit fFloor)) (N.mul (N.lit P.nyqFrac) (N.div fs (N.lit 2)))

/-- `p := min(max(pot, 0), 1)` (42_three_band_equalizer.md R143). -/
def clampPot (N : Numerics α) (pot : α) : α := minN N (maxN N pot (N.lit 0)) (N.lit 1)

/-- `GAINDB(pot, maxDb)` (42_three_band_equalizer.md R143). -/
def gainDb (N : Numerics α) (pot maxDb : α) : α :=
  N.mul (N.mul (N.sub (N.lit (1 / 2)) (clampPot N pot)) (N.lit 2)) maxDb

end Sys2Proof.Machine
end

