-- ==== Sys2Proof/Machine/Biquad.lean ====
section
/-! DEFINITION. The BiquadSection operations (40_biquad_section.md): the recurrence once, for any numeric record, and
the meanings of BQ.RESET, BQ.SETC and BQ.PROC. -/

namespace Sys2Proof.Machine

variable {α : Type}

/-- The output of one sample, in the evaluation order of 40_biquad_section.md R83. -/
def recurrence (N : Numerics α) (c : BiquadSection α) (x : α) : α :=
  let t0 := N.mul c.coef.ff x
  let t1 := N.mul (N.sub c.coef.c1 c.coef.d1) c.z1
  let t2 := N.mul (N.sub c.coef.c2 c.coef.d2) c.z2
  N.add (N.add t0 t1) t2

/-- The section after one sample: the old `z1` moves to `z2`, the output to `z1` (40_biquad_section.md R83). -/
def BiquadSection.advance (N : Numerics α) (c : BiquadSection α) (x : α) : BiquadSection α :=
  { c with z1 := recurrence N c x, z2 := c.z1 }

/-- The output of BQ.PROC on section `b`. -/
def Regs.procOut (N : Numerics α) (r : Regs α) (b : Band) (x : α) : α := recurrence N (r.sec b) x

/-- The registers after BQ.PROC on section `b`. -/
def Regs.proc (N : Numerics α) (r : Regs α) (b : Band) (x : α) : Regs α :=
  r.setSec b ((r.sec b).advance N x)

/-- The registers after BQ.RESET on section `b` (40_biquad_section.md R81). -/
def Regs.zero (N : Numerics α) (r : Regs α) (b : Band) : Regs α := r.setDelays b (N.lit 0) (N.lit 0)

/-- BQ.RESET s (40_biquad_section.md R81), on any build. -/
def bqResetOn (B : Build) (b : Band) (s : State) : Host.Outcome State Fault Refusal :=
  .next (s.finishCtrl (s.regs.zero B.num b) [])

/-- BQ.RESET s. -/
def execBqReset (b : Band) (s : State) : Host.Outcome State Fault Refusal := bqResetOn Config.build b s

/-- BQ.SETC s (40_biquad_section.md R82): five values, stored as given, on any build. -/
def bqSetcOn (_B : Build) (b : Band) (ff c1 c2 d1 d2 : NUM) (s : State) : Host.Outcome State Fault Refusal :=
  .next (s.finishCtrl (s.regs.setCoef b { ff := ff, c1 := c1, c2 := c2, d1 := d1, d2 := d2 }) [])

/-- BQ.SETC s. -/
def execBqSetc (b : Band) (ff c1 c2 d1 d2 : NUM) (s : State) : Host.Outcome State Fault Refusal :=
  bqSetcOn Config.build b ff c1 c2 d1 d2 s

/-- BQ.PROC s (40_biquad_section.md R83), on any build. -/
def bqProcOn (B : Build) (b : Band) (x : NUM) (s : State) : Host.Outcome State Fault Refusal :=
  .next (s.finishAudio (s.regs.proc B.num b x) [s.regs.procOut B.num b x])

/-- BQ.PROC s. -/
def execBqProc (b : Band) (x : NUM) (s : State) : Host.Outcome State Fault Refusal := bqProcOn Config.build b x s

end Sys2Proof.Machine
end

