-- ==== Sys2Proof/Machine/Designer.lean ====
section
/-! DEFINITION. The FilterDesigner operations (41_filter_designer.md): the shared terms, the three sets of raw
coefficients and the normalisation, for any numeric record, and the meanings of FD.LSH, FD.PEAK and FD.HSH. -/

namespace Sys2Proof.Machine

/-- The raw coefficients, before division by `a0` (00_scope.md R19). -/
structure RawCoeffs (α : Type) where
  b0 : α
  b1 : α
  b2 : α
  a0 : α
  a1 : α
  a2 : α
deriving DecidableEq, Repr

/-- The terms the three formulas share (41_filter_designer.md R103 to R106). -/
structure SharedTerms (α : Type) where
  /-- `A`. -/
  amp : α
  alpha : α
  cosw0 : α
deriving DecidableEq, Repr

variable {α : Type}

/-- `A := pow10(g / 40)` (41_filter_designer.md R103). -/
def amplitude (N : Numerics α) (g : α) : α := N.pow10 (N.div g (N.lit 40))

/-- `w0 := ((2 * PI) * fc) / fs` (41_filter_designer.md R104). -/
def omega0 (N : Numerics α) (fs fc : α) : α := N.div (N.mul (N.mul (N.lit 2) N.pi) fc) fs

/-- `alpha := sin(w0) / (2 * Qc)` (41_filter_designer.md R105). -/
def bandwidth (N : Numerics α) (w0 qc : α) : α := N.div (N.sin w0) (N.mul (N.lit 2) qc)

/-- The shared terms of clamped operands (41_filter_designer.md R100, R102 to R106). -/
def sharedTerms (N : Numerics α) (P : ClampParams) (fs f q g : α) : SharedTerms α :=
  let w0 := omega0 N fs (clampF N P fs f)
  { amp := amplitude N g, alpha := bandwidth N w0 (clampQ N P q), cosw0 := N.cos w0 }

/-- `A + 1`. -/
def ampUp (N : Numerics α) (t : SharedTerms α) : α := N.add t.amp (N.lit 1)

/-- `A - 1`. -/
def ampDown (N : Numerics α) (t : SharedTerms α) : α := N.sub t.amp (N.lit 1)

/-- `s := (2 * sqrt(A)) * alpha`, of both shelves (41_filter_designer.md R107, R108). -/
def shelfTerm (N : Numerics α) (t : SharedTerms α) : α := N.mul (N.mul (N.lit 2) (N.sqrt t.amp)) t.alpha

/-- The raw coefficients of the low shelf (41_filter_designer.md R107). -/
def rawLowShelf (N : Numerics α) (t : SharedTerms α) : RawCoeffs α :=
  let s := shelfTerm N t
  { b0 := N.mul t.amp (N.add (N.sub (ampUp N t) (N.mul (ampDown N t) t.cosw0)) s)
    b1 := N.mul (N.mul (N.lit 2) t.amp) (N.sub (ampDown N t) (N.mul (ampUp N t) t.cosw0))
    b2 := N.mul t.amp (N.sub (N.sub (ampUp N t) (N.mul (ampDown N t) t.cosw0)) s)
    a0 := N.add (N.add (ampUp N t) (N.mul (ampDown N t) t.cosw0)) s
    a1 := N.mul (N.lit (-2)) (N.add (ampDown N t) (N.mul (ampUp N t) t.cosw0))
    a2 := N.sub (N.add (ampUp N t) (N.mul (ampDown N t) t.cosw0)) s }

/-- The raw coefficients of the high shelf (41_filter_designer.md R108). -/
def rawHighShelf (N : Numerics α) (t : SharedTerms α) : RawCoeffs α :=
  let s := shelfTerm N t
  { b0 := N.mul t.amp (N.add (N.add (ampUp N t) (N.mul (ampDown N t) t.cosw0)) s)
    b1 := N.mul (N.mul (N.lit (-2)) t.amp) (N.add (ampDown N t) (N.mul (ampUp N t) t.cosw0))
    b2 := N.mul t.amp (N.sub (N.add (ampUp N t) (N.mul (ampDown N t) t.cosw0)) s)
    a0 := N.add (N.sub (ampUp N t) (N.mul (ampDown N t) t.cosw0)) s
    a1 := N.mul (N.lit 2) (N.sub (ampDown N t) (N.mul (ampUp N t) t.cosw0))
    a2 := N.sub (N.sub (ampUp N t) (N.mul (ampDown N t) t.cosw0)) s }

/-- The raw coefficients of the peaking filter (41_filter_designer.md R109). -/
def rawPeaking (N : Numerics α) (t : SharedTerms α) : RawCoeffs α :=
  { b0 := N.add (N.lit 1) (N.mul t.alpha t.amp)
    b1 := N.mul (N.lit (-2)) t.cosw0
    b2 := N.sub (N.lit 1) (N.mul t.alpha t.amp)
    a0 := N.add (N.lit 1) (N.div t.alpha t.amp)
    a1 := N.mul (N.lit (-2)) t.cosw0
    a2 := N.sub (N.lit 1) (N.div t.alpha t.amp) }

/-- The raw coefficients of a filter type. -/
def rawCoeffs (N : Numerics α) : Shape → SharedTerms α → RawCoeffs α
  | .lowShelf => rawLowShelf N
  | .peaking => rawPeaking N
  | .highShelf => rawHighShelf N

/-- Five divisions by the same `a0` (41_filter_designer.md R110). -/
def normalise (N : Numerics α) (r : RawCoeffs α) : Coeffs α :=
  { ff := N.div r.b0 r.a0
    c1 := N.div r.b1 r.a0
    c2 := N.div r.b2 r.a0
    d1 := N.div r.a1 r.a0
    d2 := N.div r.a2 r.a0 }

/-- One designer operation (41_filter_designer.md R100); none where the sample rate is not positive (R101). -/
def design (N : Numerics α) (P : ClampParams) (sh : Shape) (fs f q g : α) : Option (Coeffs α) :=
  if rateBad N fs then none
  else some (normalise N (rawCoeffs N sh (sharedTerms N P fs f q g)))

/-- A designer command: the five results are returned and no register is touched (41_filter_designer.md R100). -/
def answerDesign (B : Build) (sh : Shape) (fs f q g : NUM) (s : State) : Host.Outcome State Fault Refusal :=
  match design B.num B.clamps sh fs f q g with
  | none => .refused .nonpositiveSampleRate
  | some k => .next (s.finishCtrl s.regs k.toList)

/-- FD.LSH (41_filter_designer.md R107), on any build. -/
def fdLshOn (B : Build) (fs f q g : NUM) (s : State) : Host.Outcome State Fault Refusal :=
  answerDesign B .lowShelf fs f q g s

/-- FD.LSH. -/
def execFdLsh (fs f q g : NUM) (s : State) : Host.Outcome State Fault Refusal :=
  fdLshOn Config.build fs f q g s

/-- FD.PEAK (41_filter_designer.md R109), on any build. -/
def fdPeakOn (B : Build) (fs f q g : NUM) (s : State) : Host.Outcome State Fault Refusal :=
  answerDesign B .peaking fs f q g s

/-- FD.PEAK. -/
def execFdPeak (fs f q g : NUM) (s : State) : Host.Outcome State Fault Refusal :=
  fdPeakOn Config.build fs f q g s

/-- FD.HSH (41_filter_designer.md R108), on any build. -/
def fdHshOn (B : Build) (fs f q g : NUM) (s : State) : Host.Outcome State Fault Refusal :=
  answerDesign B .highShelf fs f q g s

/-- FD.HSH. -/
def execFdHsh (fs f q g : NUM) (s : State) : Host.Outcome State Fault Refusal :=
  fdHshOn Config.build fs f q g s

end Sys2Proof.Machine
end

