-- ==== Sys2Proof/Machine/Equalizer.lean ====
section
/-! DEFINITION. The ThreeBandEqualizer operations (42_three_band_equalizer.md, 30_encoding.md R70). EQ.PROC and
EQ.INIT are sequences of steps between which the other port may move (20_memory.md R56): the meaning runs the first
sub-step and leaves the rest in the port, and `resumeEqProc` and `resumeEqInit` run one further sub-step each. -/

namespace Sys2Proof.Machine

variable {α : Type}

/-- The coefficients a setter installs in band `b` at sample rate `fs`: the gain law, then the band's designer with
the band's constants (42_three_band_equalizer.md R144 to R146). -/
def designBand (N : Numerics α) (P : ClampParams) (b : Band) (fs pot : α) : Option (Coeffs α) :=
  design N P (bandShape b) fs (N.lit (bandF0 b)) (N.lit (bandQ b)) (gainDb N pot (N.lit (bandMaxDb b)))

/-- A setter: FS read once, then the one BQ.SETC step (30_encoding.md R70, notes/assumptions/8.md). While FS holds no value
the setter is refused: "if FS holds no value then refuse(setter_before_init)" (42_three_band_equalizer.md R144 to R146,
10_state.md R35, 60_exceptions.md R172). -/
def installBand (B : Build) (b : Band) (pot : NUM) (s : State) : Host.Outcome State Fault Refusal :=
  match s.regs.rate with
  | none => .refused .setterBeforeInit
  | some fs =>
    match designBand B.num B.clamps b fs pot with
    | none => .refused .nonpositiveSampleRate
    | some k => .next (s.finishCtrl (s.regs.setCoef b k) [])

/-- EQ.INIT fs, first sub-step: `FS <- fs` (42_three_band_equalizer.md R141), on any build. -/
def eqInitOn (B : Build) (fs : NUM) (s : State) : Host.Outcome State Fault Refusal :=
  if rateBad B.num fs then .refused .nonpositiveSampleRate
  else .next (s.goOnCtrl (s.regs.setFs fs) .bass)

/-- EQ.INIT fs, first sub-step. -/
def execEqInit (fs : NUM) (s : State) : Host.Outcome State Fault Refusal := eqInitOn Config.build fs s

/-- One further sub-step of EQ.INIT: the next BQ.RESET (30_encoding.md R70). -/
def resumeEqInit (B : Build) : EqInitRest → State → State
  | .bass, s => s.goOnCtrl (s.regs.zero B.num .bass) .mid
  | .mid, s => s.goOnCtrl (s.regs.zero B.num .mid) .treble
  | .treble, s => s.finishCtrl (s.regs.zero B.num .treble) []

/-- EQ.SETBASS pot (42_three_band_equalizer.md R144), on any build. -/
def eqSetBassOn (B : Build) (pot : NUM) (s : State) : Host.Outcome State Fault Refusal := installBand B .bass pot s

/-- EQ.SETBASS pot. -/
def execEqSetBass (pot : NUM) (s : State) : Host.Outcome State Fault Refusal :=
  eqSetBassOn Config.build pot s

/-- EQ.SETMID pot (42_three_band_equalizer.md R145), on any build. -/
def eqSetMidOn (B : Build) (pot : NUM) (s : State) : Host.Outcome State Fault Refusal := installBand B .mid pot s

/-- EQ.SETMID pot. -/
def execEqSetMid (pot : NUM) (s : State) : Host.Outcome State Fault Refusal :=
  eqSetMidOn Config.build pot s

/-- EQ.SETTREB pot (42_three_band_equalizer.md R146), on any build. -/
def eqSetTrebOn (B : Build) (pot : NUM) (s : State) : Host.Outcome State Fault Refusal := installBand B .treble pot s

/-- EQ.SETTREB pot. -/
def execEqSetTreb (pot : NUM) (s : State) : Host.Outcome State Fault Refusal :=
  eqSetTrebOn Config.build pot s

/-- EQ.PROC x, first sub-step: `u := BQ.PROC 0, x` (42_three_band_equalizer.md R142), on any build. -/
def eqProcOn (B : Build) (x : NUM) (s : State) : Host.Outcome State Fault Refusal :=
  .next (s.goOnAudio (s.regs.proc B.num .bass x) (.mid (s.regs.procOut B.num .bass x)))

/-- EQ.PROC x, first sub-step. -/
def execEqProc (x : NUM) (s : State) : Host.Outcome State Fault Refusal := eqProcOn Config.build x s

/-- One further sub-step of EQ.PROC: `v := BQ.PROC 1, u`, then `y := BQ.PROC 2, v` and `result(y)`
(42_three_band_equalizer.md R142). -/
def resumeEqProc (B : Build) : EqProcRest → State → State
  | .mid u, s => s.goOnAudio (s.regs.proc B.num .mid u) (.treble (s.regs.procOut B.num .mid u))
  | .treble v, s => s.finishAudio (s.regs.proc B.num .treble v) [s.regs.procOut B.num .treble v]

/-- Every instruction on any build: the parameters are an argument (10_state.md R34), where `exec` has this machine's. -/
def execOn (B : Build) (i : Instr) (s : State) : Host.Outcome State Fault Refusal :=
  match i with
  | .bqReset b => bqResetOn B b s
  | .bqSetc b ff c1 c2 d1 d2 => bqSetcOn B b ff c1 c2 d1 d2 s
  | .bqProc b x => bqProcOn B b x s
  | .fdLsh fs f q g => fdLshOn B fs f q g s
  | .fdPeak fs f q g => fdPeakOn B fs f q g s
  | .fdHsh fs f q g => fdHshOn B fs f q g s
  | .eqInit fs => eqInitOn B fs s
  | .eqSetBass pot => eqSetBassOn B pot s
  | .eqSetMid pot => eqSetMidOn B pot s
  | .eqSetTreb pot => eqSetTrebOn B pot s
  | .eqProc x => eqProcOn B x s

end Sys2Proof.Machine
end

