-- ==== Sys2Proof/Machine/Dispatch.lean ====
section
/-! DEFINITION. One arm per operation. -/

namespace Sys2Proof.Machine

def exec (i : Instr) (s : State) : Host.Outcome State Fault Refusal :=
  match i with
  | .bqReset b => Sys2Proof.Machine.execBqReset b s
  | .bqSetc b ff c1 c2 d1 d2 => Sys2Proof.Machine.execBqSetc b ff c1 c2 d1 d2 s
  | .bqProc b x => Sys2Proof.Machine.execBqProc b x s
  | .fdLsh fs f q g => Sys2Proof.Machine.execFdLsh fs f q g s
  | .fdPeak fs f q g => Sys2Proof.Machine.execFdPeak fs f q g s
  | .fdHsh fs f q g => Sys2Proof.Machine.execFdHsh fs f q g s
  | .eqInit fs => Sys2Proof.Machine.execEqInit fs s
  | .eqSetBass pot => Sys2Proof.Machine.execEqSetBass pot s
  | .eqSetMid pot => Sys2Proof.Machine.execEqSetMid pot s
  | .eqSetTreb pot => Sys2Proof.Machine.execEqSetTreb pot s
  | .eqProc x => Sys2Proof.Machine.execEqProc x s

end Sys2Proof.Machine
end

