-- ==== Sys2Proof/Machine/Sequencer.lean ====
section
/-! DEFINITION. What a port does when it moves, and which port moves (20_memory.md R50, R57). Each is a function of the
build `B` and of what runs an instruction on it, `run`: `execOn B`, or `exec` for this machine's own build. -/

namespace Sys2Proof.Machine

/-- What runs one instruction. -/
abbrev Run := Instr → State → Host.Outcome State Fault Refusal

/-- Take the next command `c` off the stream of port `p`, leaving `rest`, and run it; a command that names no operation
is refused by name (60_exceptions.md R172). -/
def startCommand (run : Run) (p : Port) (c : Command) (rest : List Command) (s : State) :
    Host.Outcome State Fault Refusal :=
  match decode p c with
  | .error e => .refused (refusalOf e)
  | .ok i => run i (s.setQueue p rest)

/-- One step of port AUDIO: the next sub-step of the EQ.PROC in progress, else the next command, else nothing. -/
def stepAudio (B : Build) (run : Run) (s : State) : Host.Outcome State Fault Refusal :=
  match s.audio.busy with
  | some rest => .next (resumeEqProc B rest s)
  | none =>
    match s.audio.queue with
    | [] => .next s
    | c :: rest => startCommand run .audio c rest s

/-- One step of port CTRL: the next sub-step of the EQ.INIT in progress, else the next command, else nothing. -/
def stepCtrl (B : Build) (run : Run) (s : State) : Host.Outcome State Fault Refusal :=
  match s.ctrl.busy with
  | some rest => .next (resumeEqInit B rest s)
  | none =>
    match s.ctrl.queue with
    | [] => .next s
    | c :: rest => startCommand run .ctrl c rest s

/-- One step of port `p`, whatever the other port is doing (20_memory.md R52). -/
def stepPort (B : Build) (run : Run) : Port → State → Host.Outcome State Fault Refusal
  | .audio => stepAudio B run
  | .ctrl => stepCtrl B run

/-- One step of the machine: the port whose turn it is moves; with no work on either port the block waits, which
changes nothing (10_state.md R29, notes/assumptions/12.md). -/
def advance (B : Build) (run : Run) (s : State) : Host.Outcome State Fault Refusal :=
  match s.mover B with
  | none => .next s
  | some p => stepPort B run p s

/-- One step on any build: the step relation with its parameters (10_state.md R34, 20_memory.md R50). -/
def stepOn (B : Build) (s : State) : Host.Outcome State Fault Refusal := advance B (execOn B) s

end Sys2Proof.Machine
end

