-- ==== Sys2Proof/Machine/Step.lean ====
section
/-! DEFINITION. The step function, and how the host places one command as the next of the run. -/

namespace Sys2Proof.Machine

/-- One step of the machine (20_memory.md R50), on its own build. -/
def step (s : State) : Host.Outcome State Fault Refusal := advance Config.build exec s

/-- The state with the command of an operation-map word presented as the very next command of the run: the word is the
header byte, the operands are zero (notes/assumptions/14.md). -/
def State.withFetchWord (s : State) (_nbits w : Nat) : State :=
  s.presentNext (tableCommand w).1 (tableCommand w).2

end Sys2Proof.Machine
end

