-- ==== Sys2Proof/Machine/Reference.lean ====
section
/-! DEFINITION. Numeric instances that claims and tests name: REAL, exact rational arithmetic, and the coding of any
other instance. The machine's own instance is free (`Config.numerics`), so nothing here is a law of the machine. -/

namespace Sys2Proof.Machine

open Classical in
/-- `REAL` (00_scope.md R12), which is what the rules mean as mathematics: the formulas of Biquad.lean, Designer.lean and
Equalizer.lean are written for any record, and claims read them at this one (notes/assumptions/17.md). -/
noncomputable def real : Numerics ℝ where
  lit q := (q : ℝ)
  pi := Real.pi
  add a b := a + b
  sub a b := a - b
  mul a b := a * b
  div a b := a / b
  le a b := decide (a ≤ b)
  sqrt := Real.sqrt
  sin := Real.sin
  cos := Real.cos
  pow10 v := (10 : ℝ) ^ v

/-- The function units exact rational arithmetic cannot give: pi, the roots and powers that leave the rationals, and a
quotient by zero, which the block never asks for in REAL (41_filter_designer.md R113). -/
structure Units where
  pi : Rat
  sqrt : Rat → Rat
  sin : Rat → Rat
  cos : Rat → Rat
  pow10 : Rat → Rat
  divByZero : Rat → Rat

/-- Exact rational arithmetic with any function units: "over rational operands they can be computed exactly in the
rational numbers" (00_scope.md R12). -/
def exactNum (U : Units) : Numerics NUM where
  lit q := q
  pi := U.pi
  add a b := a + b
  sub a b := a - b
  mul a b := a * b
  div a b := if b = 0 then U.divByZero a else a / b
  le a b := decide (a ≤ b)
  sqrt := U.sqrt
  sin := U.sin
  cos := U.cos
  pow10 := U.pow10

/-- The build of an instance `N` on any domain whose values are coded by `code` and read back by `value`
(00_scope.md R13). -/
def codedNum {α : Type} (N : Numerics α) (code : α → NUM) (value : NUM → α) : Numerics NUM where
  lit q := code (N.lit q)
  pi := code N.pi
  add a b := code (N.add (value a) (value b))
  sub a b := code (N.sub (value a) (value b))
  mul a b := code (N.mul (value a) (value b))
  div a b := code (N.div (value a) (value b))
  le a b := N.le (value a) (value b)
  sqrt a := code (N.sqrt (value a))
  sin a := code (N.sin (value a))
  cos a := code (N.cos (value a))
  pow10 a := code (N.pow10 (value a))

end Sys2Proof.Machine
end

