-- ==== Sys2Proof/Safety.lean ====
section
/-! DEFINITION. The terms claims are stated in: every build and this machine's own, runs of chosen ports, undisturbed runs of one section and of the
cascade, what a step leaves alone, the invariants, the stability test and the accuracy contract. -/

namespace Sys2Proof.Machine

/-! ### Every build -/

/-- `P` holds of every build, whatever its numbers, its clamp parameters and its interleaving are, and of this machine:
its parameters with `exec`. -/
def OnEveryBuild (P : Build → Run → Prop) : Prop := (∀ B, P B (execOn B)) ∧ P Config.build exec

/-- The same of a step: every build with `stepOn`, and this machine with `step`. -/
def OnEveryMachine (P : Build → (State → Host.Outcome State Fault Refusal) → Prop) : Prop :=
  (∀ B, P B (stepOn B)) ∧ P Config.build step

/-- `le fs 0` is false: the sample rate is one the spec gives a meaning to (41_filter_designer.md R101). -/
def PositiveRate {α : Type} (N : Numerics α) (fs : α) : Prop := rateBad N fs = false

/-- Products with zero, and the sum and the difference of two zeros, are zero: what 40_biquad_section.md R86 asks of a
numeric instance. A premise about an instance, never a law of the machine. -/
structure ZeroLaws {α : Type} (N : Numerics α) : Prop where
  zero_mul : ∀ v, N.mul (N.lit 0) v = N.lit 0
  mul_zero : ∀ v, N.mul v (N.lit 0) = N.lit 0
  zero_add : N.add (N.lit 0) (N.lit 0) = N.lit 0
  zero_sub : N.sub (N.lit 0) (N.lit 0) = N.lit 0

/-! ### Runs -/

/-- The outcome of letting the listed ports move in that order: one interleaving of 20_memory.md R50. -/
def runPorts (B : Build) (run : Run) : List Port → State → Host.Outcome State Fault Refusal
  | [], s => .next s
  | p :: ps, s =>
    match stepPort B run p s with
    | .next t => runPorts B run ps t
    | .fault r => .fault r
    | .refused r => .refused r

/-- Letting the listed ports move in that order, each with something to do when its time comes, leads from `s` to `t`. -/
def Interleaved (B : Build) (run : Run) : List Port → State → State → Prop
  | [], s, t => t = s
  | p :: ps, s, t => s.hasWork p = true ∧ ∃ u, stepPort B run p s = .next u ∧ Interleaved B run ps u t

/-- The outcome of `n` steps. -/
def runSteps (stp : State → Host.Outcome State Fault Refusal) : Nat → State → Host.Outcome State Fault Refusal
  | 0, s => .next s
  | n + 1, s =>
    match stp s with
    | .next t => runSteps stp n t
    | .fault r => .fault r
    | .refused r => .refused r

/-- What a run shows: the responses of each port in order, and the registers (70_reset_and_hazards.md R195). -/
def State.observation (s : State) : List (List NUM) × List (List NUM) × Regs NUM :=
  (s.audio.responses, s.ctrl.responses, s.regs)

/-- The operation the next step begins; none when the step resumes a composite, waits, or meets a command that names
no operation. -/
def State.startsNext (B : Build) (s : State) : Option Instr :=
  match s.mover B with
  | none => none
  | some .audio =>
    match s.audio.busy, s.audio.queue with
    | none, c :: _ => (decode .audio c).toOption
    | _, _ => none
  | some .ctrl =>
    match s.ctrl.busy, s.ctrl.queue with
    | none, c :: _ => (decode .ctrl c).toOption
    | _, _ => none

/-! ### What is left alone -/

/-- Of the run's position, at most CTRL's progress and responses differ. -/
structure OnlyCtrlMoved (s t : State) : Prop where
  audio : t.audio = s.audio
  queue : t.ctrl.queue = s.ctrl.queue

/-- Of the run's position, at most AUDIO's progress and responses differ. -/
structure OnlyAudioMoved (s t : State) : Prop where
  ctrl : t.ctrl = s.ctrl
  queue : t.audio.queue = s.audio.queue

/-- A command of CTRL is complete with results `res`, and nothing else of the run's position differs. -/
def CtrlAnswered (s t : State) (res : List NUM) : Prop :=
  OnlyCtrlMoved s t ∧ t.ctrl.busy = none ∧ t.ctrl.responses = s.ctrl.responses ++ [res]

/-- A command of AUDIO is complete with results `res`, and nothing else of the run's position differs. -/
def AudioAnswered (s t : State) (res : List NUM) : Prop :=
  OnlyAudioMoved s t ∧ t.audio.busy = none ∧ t.audio.responses = s.audio.responses ++ [res]

/-- No register of a section other than `b`, and not FS, differs. -/
def OnlySection {α : Type} (b : Band) (r r' : Regs α) : Prop :=
  (∀ b', b' ≠ b → r'.sec b' = r.sec b') ∧ r'.fs = r.fs ∧ r'.fsWritten = r.fsWritten

/-- The state with another content of FS, written or not. -/
def State.withFsContent (s : State) (v : NUM) : State := { s with regs := { s.regs with fs := v } }

/-- Registers with every value replaced by its image. -/
def Coeffs.map {α β : Type} (f : α → β) (k : Coeffs α) : Coeffs β :=
  { ff := f k.ff, c1 := f k.c1, c2 := f k.c2, d1 := f k.d1, d2 := f k.d2 }

/-- A section with every value replaced by its image. -/
def BiquadSection.map {α β : Type} (f : α → β) (c : BiquadSection α) : BiquadSection β :=
  { coef := c.coef.map f, z1 := f c.z1, z2 := f c.z2 }

/-- All registers with every value replaced by its image. -/
def Regs.map {α β : Type} (f : α → β) (r : Regs α) : Regs β :=
  { bass := r.bass.map f, mid := r.mid.map f, treble := r.treble.map f, fs := f r.fs, fsWritten := r.fsWritten }

/-! ### Undisturbed runs, for any numeric domain -/

variable {α : Type}

/-- The section after a list of samples. -/
def sectionAfter (N : Numerics α) (c : BiquadSection α) : List α → BiquadSection α
  | [] => c
  | x :: xs => sectionAfter N (c.advance N x) xs

/-- The outputs of a section for a list of samples. -/
def sectionRun (N : Numerics α) (c : BiquadSection α) : List α → List α
  | [] => []
  | x :: xs => recurrence N c x :: sectionRun N (c.advance N x) xs

/-- The output of one EQ.PROC with no step of CTRL between its sub-steps (42_three_band_equalizer.md R142). -/
def cascadeOut (N : Numerics α) (r : Regs α) (x : α) : α :=
  recurrence N r.treble (recurrence N r.mid (recurrence N r.bass x))

/-- The registers after one EQ.PROC with no step of CTRL between its sub-steps. -/
def cascadeRegs (N : Numerics α) (r : Regs α) (x : α) : Regs α :=
  let u := recurrence N r.bass x
  let v := recurrence N r.mid u
  { r with bass := r.bass.advance N x, mid := r.mid.advance N u, treble := r.treble.advance N v }

/-- The outputs of such EQ.PROC operations for a list of samples. -/
def cascadeRun (N : Numerics α) (r : Regs α) : List α → List α
  | [] => []
  | x :: xs => cascadeOut N r x :: cascadeRun N (cascadeRegs N r x) xs

/-- The registers after the setter of band `b`; none where the setter is refused (42_three_band_equalizer.md R144). -/
def setBand (N : Numerics α) (P : ClampParams) (b : Band) (pot : α) (r : Regs α) : Option (Regs α) :=
  match r.rate with
  | none => none
  | some fs => (designBand N P b fs pot).map (r.setCoef b)

/-- `p1 = c1 - d1` (40_biquad_section.md R84). -/
def Coeffs.p1 (N : Numerics α) (k : Coeffs α) : α := N.sub k.c1 k.d1

/-- `p2 = c2 - d2` (40_biquad_section.md R84). -/
def Coeffs.p2 (N : Numerics α) (k : Coeffs α) : α := N.sub k.c2 k.d2

/-- A section that holds the tuple `k` and zero delay registers. -/
def restingSection (N : Numerics α) (k : Coeffs α) : BiquadSection α :=
  { coef := k, z1 := N.lit 0, z2 := N.lit 0 }

/-- The unit impulse and `n` zeros after it. -/
def impulse (N : Numerics α) (n : Nat) : List α := N.lit 1 :: List.replicate n (N.lit 0)

/-! ### Headers by the words of the spec -/

/-- The reserved headers as 30_encoding.md R66 lists them. -/
def reservedByRule (h : Header) : Bool :=
  let op := h.toNat / 16
  let rsv := h.toNat / 4 % 4
  let sel := h.toNat % 4
  [0, 7, 10, 11, 13, 14, 15].contains op || rsv != 0 || (sel == 3 && [1, 2, 3, 9].contains op) ||
    (sel != 0 && [4, 5, 6, 8, 12].contains op)

/-- The seventeen valid headers as 30_encoding.md R65 lists them. -/
def validHeaders : List Header :=
  [0x10, 0x11, 0x12, 0x20, 0x21, 0x22, 0x30, 0x31, 0x32, 0x40, 0x50, 0x60, 0x80, 0x90, 0x91, 0x92, 0xC0]

/-- The operand count of a valid header: "a decoder learns the length from h[7:4] alone"
(30_encoding.md R64, R69). -/
def operandCount (h : Header) : Nat :=
  match h.toNat / 16 with
  | 1 => 0
  | 2 => 5
  | 3 => 1
  | 4 => 4
  | 5 => 4
  | 6 => 4
  | _ => 1

/-- The port of a valid header: BQ.PROC and EQ.PROC on AUDIO, every other on CTRL (30_encoding.md R68). -/
def rightPort (h : Header) : Port :=
  match h.toNat / 16 with
  | 3 => .audio
  | 12 => .audio
  | _ => .ctrl

/-- The next step takes the command `c` off port `p`. -/
def State.takes (B : Build) (s : State) (p : Port) (c : Command) : Prop :=
  s.mover B = some p ∧
    match p with
    | .audio => s.audio.busy = none ∧ s.audio.queue.head? = some c
    | .ctrl => s.ctrl.busy = none ∧ s.ctrl.queue.head? = some c

/-! ### Invariants -/

/-- FS holds no value or a positive one (10_state.md R28, 42_three_band_equalizer.md R141). -/
def FsPositive (N : Numerics NUM) (s : State) : Prop := ∀ fs, s.regs.rate = some fs → PositiveRate N fs

/-- An EQ.INIT in progress has stored its sample rate. -/
def InitHasStored (s : State) : Prop := s.ctrl.busy ≠ none → s.regs.fsWritten = true

/-- Every AUDIO response is one value, every CTRL response none or five (30_encoding.md R64). -/
def ResponsesShaped (s : State) : Prop :=
  (∀ r ∈ s.audio.responses, r.length = 1) ∧ ∀ r ∈ s.ctrl.responses, r.length = 0 ∨ r.length = 5

/-- The invariant of the machine. -/
def Inv (N : Numerics NUM) (s : State) : Prop := FsPositive N s ∧ InitHasStored s ∧ ResponsesShaped s

/-- How many commands a port has been presented with in all: completed, in progress and waiting. -/
def PortState.presented {ρ : Type} (p : PortState ρ) : Nat :=
  p.responses.length + (if p.busy.isSome then 1 else 0) + p.queue.length

/-- Section `b` still holds its power-on registers, every later section is at rest, nothing but zero has passed
`b`, and every AUDIO response so far is zero (70_reset_and_hazards.md R184). -/
def MutedAt (N : Numerics NUM) (b : Band) (s : State) : Prop :=
  s.regs.sec b = .powerOn N ∧
  (∀ b', b.toSel < b'.toSel → (s.regs.sec b').z1 = N.lit 0 ∧ (s.regs.sec b').z2 = N.lit 0) ∧
  (∀ u, s.audio.busy = some (.mid u) → b = .bass → u = N.lit 0) ∧
  (∀ v, s.audio.busy = some (.treble v) → b ≠ .treble → v = N.lit 0) ∧
  ∀ r ∈ s.audio.responses, r = [N.lit 0]

/-- The sample the next step feeds to section `b`, if it feeds it one: the operand of the BQ.PROC or EQ.PROC that
begins, or what the EQ.PROC in progress has computed (10_state.md R25, 42_three_band_equalizer.md R142). -/
def State.feeds (B : Build) (s : State) (b : Band) (x : NUM) : Prop :=
  s.startsNext B = some (.bqProc b x) ∨ (b = .bass ∧ s.startsNext B = some (.eqProc x)) ∨
  (s.mover B = some .audio ∧
    ((b = .mid ∧ s.audio.busy = some (.mid x)) ∨ (b = .treble ∧ s.audio.busy = some (.treble x))))

/-- The next step zeroes the delay registers of section `b`: a BQ.RESET of it begins, or the EQ.INIT in progress has
come to it (10_state.md R25, 30_encoding.md R70). -/
def State.zeroes (B : Build) (s : State) (b : Band) : Prop :=
  s.startsNext B = some (.bqReset b) ∨
  (s.mover B = some .ctrl ∧
    s.ctrl.busy = some (match b with | .bass => EqInitRest.bass | .mid => .mid | .treble => .treble))

/-- The operation writes the coefficients of section `b` (10_state.md R23). -/
def loadsCoefs (i : Instr) (b : Band) : Bool :=
  match i with
  | .bqSetc b' .. => b' == b
  | .eqSetBass _ => b == .bass
  | .eqSetMid _ => b == .mid
  | .eqSetTreb _ => b == .treble
  | _ => false

/-- The setter of a band (42_three_band_equalizer.md R144 to R146). -/
def setterOf : Band → NUM → Instr
  | .bass => .eqSetBass
  | .mid => .eqSetMid
  | .treble => .eqSetTreb

/-- The operation is a BQ.PROC, which feeds one section directly. -/
def isBqProc : Instr → Bool
  | .bqProc .. => true
  | _ => false

/-! ### Stability and accuracy, in REAL -/

/-- The stability test of 40_biquad_section.md R89: `|p2| < 1` and `|p1| < 1 - p2`. -/
def StabilityTest (p1 p2 : ℝ) : Prop := |p2| < 1 ∧ |p1| < 1 - p2

/-- The impulse response of a section: sample `n` of its output for the unit impulse from rest
(40_biquad_section.md R84). -/
noncomputable def impulseResponse (k : Coeffs ℝ) (n : Nat) : ℝ :=
  recurrence real (sectionAfter real (restingSection real k) ((impulse real n).take n))
    (if n = 0 then 1 else 0)

/-- `ACC_TOL` (00_scope.md R9). -/
noncomputable def accTol : ℝ := 1 / 10000

/-- One result is accurate against its REAL counterpart (41_filter_designer.md R112). -/
def Accurate (r rReal : ℝ) : Prop := |r - rReal| ≤ accTol * max 1 |rReal|

/-- The five results are accurate. -/
def CoeffsAccurate (val : α → ℝ) (k : Coeffs α) (kReal : Coeffs ℝ) : Prop :=
  Accurate (val k.ff) kReal.ff ∧ Accurate (val k.c1) kReal.c1 ∧ Accurate (val k.c2) kReal.c2 ∧
    Accurate (val k.d1) kReal.d1 ∧ Accurate (val k.d2) kReal.d2

/-- The accuracy contract of 41_filter_designer.md R112 for a numeric record whose values stand for the reals
`val`: a named hypothesis about a record, never a law of the machine. -/
def MeetsAccuracyContract (N : Numerics α) (val : α → ℝ) (P : ClampParams) : Prop :=
  ∀ sh fs f q g, 0 < val fs → ∃ k kReal, design N P sh fs f q g = some k ∧
    design real P sh (val fs) (val f) (val q) (val g) = some kReal ∧ CoeffsAccurate val k kReal

end Sys2Proof.Machine
end

