-- ==== Sys2Proof/Certificates/Slice0/Obligations.lean ====
section
/-! DEFINITION. The statements for the provers. A statement inside `OnEveryBuild` or `OnEveryMachine` holds whatever the
numeric instance, the clamp parameters and the interleaving are (10_state.md R34), and of this machine's `exec` or `step`
in particular; one that needs a law of numbers names the instance that has it. -/

open Sys2Proof Sys2Proof.Machine

/-! ### Reset and constants -/

/-- 10_state.md R35, the power-on column, on any numeric instance; the values of the run's own fields are the model's
(notes/assumptions/6.md). -/
def Obligations.ResetHoldsThePowerOnValues : Prop :=
  State.reset = State.resetOn Config.numerics Config.powerOnFs ∧
  ∀ (N : Numerics NUM) (v : NUM),
    (∀ b : Band, (State.resetOn N v).regs.sec b =
      { coef := { ff := N.lit 0, c1 := N.lit 0, c2 := N.lit 0, d1 := N.lit 0, d2 := N.lit 0 },
        z1 := N.lit 0, z2 := N.lit 0 }) ∧
    (State.resetOn N v).regs.rate = none ∧
    (State.resetOn N v).observation = ([], [], (State.resetOn N v).regs) ∧ ∀ B, (State.resetOn N v).mover B = none

/-- 10_state.md R35, the whole table: power-on, after BQ.RESET s, and after an EQ.INIT fs that AUDIO leaves alone; and
that what reads FS before the first EQ.INIT is refused. -/
def Obligations.ResetTableOfTheRegisters : Prop :=
  (∀ (N : Numerics NUM) (v : NUM) (b : Band), (State.resetOn N v).regs.sec b =
      { coef := { ff := N.lit 0, c1 := N.lit 0, c2 := N.lit 0, d1 := N.lit 0, d2 := N.lit 0 },
        z1 := N.lit 0, z2 := N.lit 0 } ∧ (State.resetOn N v).regs.rate = none) ∧
  State.reset = State.resetOn Config.numerics Config.powerOnFs ∧
  (OnEveryBuild fun B run => ∀ (b : Band) (s : State), ∃ t, run (.bqReset b) s = .next t ∧
    t.regs.sec b = { s.regs.sec b with z1 := B.num.lit 0, z2 := B.num.lit 0 } ∧ OnlySection b s.regs t.regs) ∧
  (OnEveryBuild fun B run => ∀ (fs : NUM) (s : State), PositiveRate B.num fs → ∃ t u, run (.eqInit fs) s = .next t ∧
    runPorts B run [.ctrl, .ctrl, .ctrl] t = .next u ∧ u.regs.rate = some fs ∧
    ∀ b, u.regs.sec b = { s.regs.sec b with z1 := B.num.lit 0, z2 := B.num.lit 0 }) ∧
  (OnEveryBuild fun _ run => ∀ (b : Band) (pot : NUM) (s : State), s.regs.rate = none →
    run (setterOf b pot) s = .refused .setterBeforeInit) ∧
  (bandF0 .bass = 80 ∧ bandF0 .mid = 800 ∧ bandF0 .treble = 4000) ∧
  (bandQ .bass = 707 / 1000 ∧ bandQ .mid = 1 ∧ bandQ .treble = 707 / 1000) ∧
  (bandMaxDb .bass = 15 ∧ bandMaxDb .mid = 12 ∧ bandMaxDb .treble = 15) ∧
  (bandShape .bass = .lowShelf ∧ bandShape .mid = .peaking ∧ bandShape .treble = .highShelf)

/-! ### Commands -/

/-- 30_encoding.md R65: words written out from the map, with operands, decode to what they stand for. -/
def Obligations.HeaderWordsDecodeAsTheMapSays : Prop :=
  decode .ctrl { header := 0b00010010, ops := [] } = .ok (.bqReset .treble) ∧
  decode .ctrl { header := 0b00100001, ops := [1, 2, 3, 4, 5] } = .ok (.bqSetc .mid 1 2 3 4 5) ∧
  decode .audio { header := 0b00110000, ops := [7] } = .ok (.bqProc .bass 7) ∧
  decode .ctrl { header := 0b01000000, ops := [1, 2, 3, 4] } = .ok (.fdLsh 1 2 3 4) ∧
  decode .ctrl { header := 0b01010000, ops := [1, 2, 3, 4] } = .ok (.fdPeak 1 2 3 4) ∧
  decode .ctrl { header := 0b01100000, ops := [1, 2, 3, 4] } = .ok (.fdHsh 1 2 3 4) ∧
  decode .ctrl { header := 0b10000000, ops := [9] } = .ok (.eqInit 9) ∧
  decode .ctrl { header := 0b10010010, ops := [9] } = .ok (.eqSetTreb 9) ∧
  decode .audio { header := 0b11000000, ops := [9] } = .ok (.eqProc 9)

/-- 30_encoding.md R62 to R65: nothing of an operation is lost in its command. -/
def Obligations.DecodeAfterEncode : Prop :=
  ∀ i : Instr, decode i.port (encode i) = .ok i

/-- 30_encoding.md R65: a command names at most one operation, and only its own command names it. -/
def Obligations.EncodeAfterDecode : Prop :=
  ∀ (p : Port) (c : Command) (i : Instr), decode p c = .ok i → i.port = p ∧ encode i = c

/-- 30_encoding.md R65 to R68: the field-by-field decoder accepts exactly what the match and mask rows accept. -/
def Obligations.DecodeAcceptsExactlyTheMap : Prop :=
  ∀ (p : Port) (c : Command), (∃ i, decode p c = .ok i) ↔ c.wellFormed p = true

/-- 30_encoding.md R66. -/
def Obligations.ReservedHeadersAreRefused : Prop :=
  (∀ h : Header, reservedByRule h = true ↔ h ∉ validHeaders) ∧
  ((List.range 256).filter fun n => reservedByRule (BitVec.ofNat 8 n)).length = 239 ∧
  (∀ (p : Port) (c : Command), decode p c = .error .reservedHeader ↔ reservedByRule c.header = true) ∧
  OnEveryMachine fun B stp => ∀ (s : State) (p : Port) (c : Command), s.takes B p c →
    reservedByRule c.header = true → stp s = .refused .reservedHeader

/-- 30_encoding.md R67, with the operand counts of R64. -/
def Obligations.WrongOperandCountIsRefused : Prop :=
  (∀ (p : Port) (c : Command), decode p c = .error .malformedOperands ↔
    c.header ∈ validHeaders ∧ c.ops.length ≠ operandCount c.header) ∧
  OnEveryMachine fun B stp => ∀ (s : State) (p : Port) (c : Command), s.takes B p c → c.header ∈ validHeaders →
    c.ops.length ≠ operandCount c.header → stp s = .refused .malformedOperands

/-- 30_encoding.md R68. -/
def Obligations.WrongPortIsRefused : Prop :=
  (∀ (p : Port) (c : Command), decode p c = .error .wrongPort ↔
    c.header ∈ validHeaders ∧ c.ops.length = operandCount c.header ∧ p ≠ rightPort c.header) ∧
  (∀ i : Instr, i.port = .audio ↔ (∃ b x, i = .bqProc b x) ∨ ∃ x, i = .eqProc x) ∧
  OnEveryMachine fun B stp => ∀ (s : State) (p : Port) (c : Command), s.takes B p c → c.header ∈ validHeaders →
    c.ops.length = operandCount c.header → p ≠ rightPort c.header → stp s = .refused .wrongPort

/-- The model's placing of a table word (notes/assumptions/14.md): the very next step runs the operation the word
names, on the registers as they were. -/
def Obligations.TableWordRunsNext : Prop :=
  ∀ (s : State) (w : Nat) (i : Instr), decodeTableWord 8 w = some i →
    ∃ t, step (s.withFetchWord 8 w) = exec i t ∧ (∀ B, stepOn B (s.withFetchWord 8 w) = execOn B i t) ∧
      t.regs = s.regs ∧ t.queueOf i.port = s.queueOf i.port ∧
      t.audio.responses = s.audio.responses ∧ t.ctrl.responses = s.ctrl.responses

/-! ### The biquad operations -/

/-- 40_biquad_section.md R81. -/
def Obligations.BqResetZeroesItsDelays : Prop :=
  OnEveryBuild fun B run => ∀ (b : Band) (s : State),
    (∃ t, run (.bqReset b) s = .next t ∧
      t.regs.sec b = { s.regs.sec b with z1 := B.num.lit 0, z2 := B.num.lit 0 } ∧
      OnlySection b s.regs t.regs ∧ CtrlAnswered s t [] ∧
      ((s.regs.sec b).z1 = B.num.lit 0 → (s.regs.sec b).z2 = B.num.lit 0 → t.regs = s.regs)) ∧
    encode (.bqReset b) = { header := BitVec.ofNat 8 (0x10 + b.toSel), ops := [] } ∧
    (Instr.bqReset b).port = .ctrl

/-- 40_biquad_section.md R82. -/
def Obligations.BqSetcReplacesTheTuple : Prop :=
  OnEveryBuild fun _ run => ∀ (b : Band) (ff c1 c2 d1 d2 : NUM) (s : State),
    (∃ t, run (.bqSetc b ff c1 c2 d1 d2) s = .next t ∧
      t.regs.sec b = { coef := { ff := ff, c1 := c1, c2 := c2, d1 := d1, d2 := d2 },
                       z1 := (s.regs.sec b).z1, z2 := (s.regs.sec b).z2 } ∧
      OnlySection b s.regs t.regs ∧ CtrlAnswered s t []) ∧
    encode (.bqSetc b ff c1 c2 d1 d2) =
      { header := BitVec.ofNat 8 (0x20 + b.toSel), ops := [ff, c1, c2, d1, d2] } ∧
    (Instr.bqSetc b ff c1 c2 d1 d2).port = .ctrl

/-- 40_biquad_section.md R83, the seven operations of its pseudocode in its order; and what they are in exact
arithmetic. -/
def Obligations.BqProcComputesTheRecurrence : Prop :=
  (OnEveryBuild fun B run => ∀ (b : Band) (x : NUM) (s : State),
    let c := s.regs.sec b
    let t0 := B.num.mul c.coef.ff x
    let t1 := B.num.mul (B.num.sub c.coef.c1 c.coef.d1) c.z1
    let t2 := B.num.mul (B.num.sub c.coef.c2 c.coef.d2) c.z2
    let y := B.num.add (B.num.add t0 t1) t2
    (∃ t, run (.bqProc b x) s = .next t ∧
      t.regs.sec b = { coef := c.coef, z1 := y, z2 := c.z1 } ∧
      OnlySection b s.regs t.regs ∧ AudioAnswered s t [y]) ∧
    encode (.bqProc b x) = { header := BitVec.ofNat 8 (0x30 + b.toSel), ops := [x] } ∧
    (Instr.bqProc b x).port = .audio) ∧
  ∀ (U : Units) (c : BiquadSection NUM) (x : NUM), recurrence (exactNum U) c x =
    c.coef.ff * x + (c.coef.c1 - c.coef.d1) * c.z1 + (c.coef.c2 - c.coef.d2) * c.z2

/-- 20_memory.md R48 and 70_reset_and_hazards.md R186: the sample after a publication computes with the new tuple and
the old delay registers. -/
def Obligations.PublishedTupleIsUsedAtOnce : Prop :=
  OnEveryBuild fun B run => ∀ (b : Band) (ff c1 c2 d1 d2 x : NUM) (s : State), ∃ t u,
    run (.bqSetc b ff c1 c2 d1 d2) s = .next t ∧ run (.bqProc b x) t = .next u ∧
    AudioAnswered t u [recurrence B.num
      { s.regs.sec b with coef := { ff := ff, c1 := c1, c2 := c2, d1 := d1, d2 := d2 } } x]

/-- 20_memory.md R56 and 10_state.md R27: a BQ.SETC and a BQ.PROC of different sections give the same state in either
order. -/
def Obligations.SetcAndProcOfOtherSectionsCommute : Prop :=
  OnEveryBuild fun _ run => ∀ (b b' : Band) (ff c1 c2 d1 d2 x : NUM) (s : State), b ≠ b' → ∃ t u v,
    run (.bqSetc b ff c1 c2 d1 d2) s = .next t ∧ run (.bqProc b' x) t = .next v ∧
    run (.bqProc b' x) s = .next u ∧ run (.bqSetc b ff c1 c2 d1 d2) u = .next v

/-- 10_state.md R24: from a zeroed section, the delay registers hold the last two outputs, whatever the numbers are. -/
def Obligations.DelayRegistersHoldTheLastOutputs : Prop :=
  ∀ (α : Type) (N : Numerics α) (k : Coeffs α) (xs : List α),
    let c := sectionAfter N (restingSection N k) xs
    let ys := (sectionRun N (restingSection N k) xs).reverse
    c.z1 = ys.getD 0 (N.lit 0) ∧ c.z2 = ys.getD 1 (N.lit 0) ∧ c.coef = k

/-- 40_biquad_section.md R84, in REAL: the two-pole form, the impulse response, and that only ff, p1, p2 act. -/
def Obligations.TwoPoleFormOfTheRecurrence : Prop :=
  (∀ (k : Coeffs ℝ) (xs : List ℝ) (n : Nat), n < xs.length →
    let ys := sectionRun real (restingSection real k) xs
    ys.getD n 0 = k.ff * xs.getD n 0 + k.p1 real * (if 1 ≤ n then ys.getD (n - 1) 0 else 0)
      + k.p2 real * (if 2 ≤ n then ys.getD (n - 2) 0 else 0)) ∧
  (∀ k : Coeffs ℝ, impulseResponse k 0 = k.ff ∧ impulseResponse k 1 = k.p1 real * k.ff ∧
    ∀ n, impulseResponse k (n + 2) = k.p1 real * impulseResponse k (n + 1) + k.p2 real * impulseResponse k n) ∧
  ∀ (k k' : Coeffs ℝ), k.ff = k'.ff → k.p1 real = k'.p1 real → k.p2 real = k'.p2 real →
    ∀ (z1 z2 : ℝ) (xs : List ℝ), sectionRun real { coef := k, z1 := z1, z2 := z2 } xs =
      sectionRun real { coef := k', z1 := z1, z2 := z2 } xs

/-- 40_biquad_section.md R89, for a section its input reaches (ff is not zero: with ff = 0 every impulse response is
zero). -/
def Obligations.ImpulseResponseDecaysExactlyByTheTest : Prop :=
  ∀ k : Coeffs ℝ, k.ff ≠ 0 →
    (Filter.Tendsto (impulseResponse k) Filter.atTop (nhds 0) ↔ StabilityTest (k.p1 real) (k.p2 real))

/-- 40_biquad_section.md R88 and 60_exceptions.md R163: nothing clamps. With p1 = 2 and p2 = -1 the answer to a unit
impulse passes every bound, in exact arithmetic. -/
def Obligations.OutputGrowsWithoutBound : Prop :=
  ∀ (U : Units) (bound : NUM), ∃ n, ∃ y ∈ sectionRun (exactNum U)
    (restingSection (exactNum U) { ff := 1, c1 := 2, c2 := 0, d1 := 0, d2 := 1 }) (impulse (exactNum U) n), bound < y

/-- 40_biquad_section.md R86, in every numeric domain with the laws of zero, which REAL and exact arithmetic have, and in
REAL that ff = 0 cuts the input off. -/
def Obligations.ZeroCoefficientsGiveSilence : Prop :=
  (∀ (α : Type) (N : Numerics α) (z1 z2 x x' : α), ZeroLaws N →
    let z := N.lit 0
    let c : BiquadSection α := { coef := { ff := z, c1 := z, c2 := z, d1 := z, d2 := z }, z1 := z1, z2 := z2 }
    sectionRun N c [x, x'] = [z, z] ∧ (sectionAfter N c [x, x']).z1 = z ∧ (sectionAfter N c [x, x']).z2 = z) ∧
  (ZeroLaws real ∧ ∀ U : Units, ZeroLaws (exactNum U)) ∧
  (∀ (c : BiquadSection ℝ) (x x' : ℝ), c.coef.ff = 0 → recurrence real c x = recurrence real c x') ∧
  OnEveryBuild fun B run => ∀ (b : Band) (x : NUM) (s : State), ZeroLaws B.num →
    (s.regs.sec b).coef = (BiquadSection.powerOn B.num).coef →
    ∃ t, run (.bqProc b x) s = .next t ∧ AudioAnswered s t [B.num.lit 0] ∧ (t.regs.sec b).z1 = B.num.lit 0 ∧
      (t.regs.sec b).z2 = (s.regs.sec b).z1

/-- 40_biquad_section.md R87, in REAL and, for the command, in exact arithmetic. -/
def Obligations.IdentitySectionPassesItsInput : Prop :=
  (∀ (c : BiquadSection ℝ) (x : ℝ), c.coef.ff = 1 → c.coef.c1 = c.coef.d1 → c.coef.c2 = c.coef.d2 →
    recurrence real c x = x ∧
      ∀ x', (sectionAfter real c [x, x']).z1 = x' ∧ (sectionAfter real c [x, x']).z2 = x) ∧
  (∀ (P : ClampParams) (sh : Shape) (fs f q : ℝ), 0 < fs →
    ∃ k, design real P sh fs f q 0 = some k ∧ k.ff = 1 ∧ k.c1 = k.d1 ∧ k.c2 = k.d2) ∧
  ∀ (B : Build) (U : Units) (b : Band) (x : NUM) (s : State), B.num = exactNum U → (s.regs.sec b).coef.ff = 1 →
    (s.regs.sec b).coef.c1 = (s.regs.sec b).coef.d1 → (s.regs.sec b).coef.c2 = (s.regs.sec b).coef.d2 →
    ∃ t, execOn B (.bqProc b x) s = .next t ∧ AudioAnswered s t [x]

/-! ### The designer operations -/

/-- 41_filter_designer.md R107 with R102 to R106 and R110: its pseudocode, one function of the numeric instance for each
operator in the order of 00_scope.md R14; and the source's formulas in REAL. -/
def Obligations.FdLshReturnsTheLowShelf : Prop :=
  (OnEveryBuild fun B run => ∀ (fs f q g : NUM) (s : State), PositiveRate B.num fs →
    let N := B.num
    let one := N.lit 1
    let two := N.lit 2
    let qc := maxN N q (N.lit B.clamps.qFloor)
    let fc := minN N (maxN N f (N.lit 0)) (N.mul (N.lit B.clamps.nyqFrac) (N.div fs two))
    let A := N.pow10 (N.div g (N.lit 40))
    let w0 := N.div (N.mul (N.mul two N.pi) fc) fs
    let alpha := N.div (N.sin w0) (N.mul two qc)
    let cosw0 := N.cos w0
    let s' := N.mul (N.mul two (N.sqrt A)) alpha
    let b0 := N.mul A (N.add (N.sub (N.add A one) (N.mul (N.sub A one) cosw0)) s')
    let b1 := N.mul (N.mul two A) (N.sub (N.sub A one) (N.mul (N.add A one) cosw0))
    let b2 := N.mul A (N.sub (N.sub (N.add A one) (N.mul (N.sub A one) cosw0)) s')
    let a0 := N.add (N.add (N.add A one) (N.mul (N.sub A one) cosw0)) s'
    let a1 := N.mul (N.lit (-2)) (N.add (N.sub A one) (N.mul (N.add A one) cosw0))
    let a2 := N.sub (N.add (N.add A one) (N.mul (N.sub A one) cosw0)) s'
    ∃ t, run (.fdLsh fs f q g) s = .next t ∧ t.regs = s.regs ∧
      CtrlAnswered s t [N.div b0 a0, N.div b1 a0, N.div b2 a0, N.div a1 a0, N.div a2 a0]) ∧
  ∀ (P : ClampParams) (fs f q g : ℝ), 0 < fs →
    let w0 := 2 * Real.pi * min (max f 0) (P.nyqFrac * (fs / 2)) / fs
    let alpha := Real.sin w0 / (2 * max q P.qFloor)
    let cosw0 := Real.cos w0
    let A := (10 : ℝ) ^ (g / 40)
    let b0 := A * ((A + 1) - (A - 1) * cosw0 + 2 * Real.sqrt A * alpha)
    let b1 := 2 * A * ((A - 1) - (A + 1) * cosw0)
    let b2 := A * ((A + 1) - (A - 1) * cosw0 - 2 * Real.sqrt A * alpha)
    let a0 := (A + 1) + (A - 1) * cosw0 + 2 * Real.sqrt A * alpha
    let a1 := -2 * ((A - 1) + (A + 1) * cosw0)
    let a2 := (A + 1) + (A - 1) * cosw0 - 2 * Real.sqrt A * alpha
    design real P .lowShelf fs f q g = some { ff := b0 / a0, c1 := b1 / a0, c2 := b2 / a0, d1 := a1 / a0, d2 := a2 / a0 }

/-- 41_filter_designer.md R108, likewise. -/
def Obligations.FdHshReturnsTheHighShelf : Prop :=
  (OnEveryBuild fun B run => ∀ (fs f q g : NUM) (s : State), PositiveRate B.num fs →
    let N := B.num
    let one := N.lit 1
    let two := N.lit 2
    let qc := maxN N q (N.lit B.clamps.qFloor)
    let fc := minN N (maxN N f (N.lit 0)) (N.mul (N.lit B.clamps.nyqFrac) (N.div fs two))
    let A := N.pow10 (N.div g (N.lit 40))
    let w0 := N.div (N.mul (N.mul two N.pi) fc) fs
    let alpha := N.div (N.sin w0) (N.mul two qc)
    let cosw0 := N.cos w0
    let s' := N.mul (N.mul two (N.sqrt A)) alpha
    let b0 := N.mul A (N.add (N.add (N.add A one) (N.mul (N.sub A one) cosw0)) s')
    let b1 := N.mul (N.mul (N.lit (-2)) A) (N.add (N.sub A one) (N.mul (N.add A one) cosw0))
    let b2 := N.mul A (N.sub (N.add (N.add A one) (N.mul (N.sub A one) cosw0)) s')
    let a0 := N.add (N.sub (N.add A one) (N.mul (N.sub A one) cosw0)) s'
    let a1 := N.mul two (N.sub (N.sub A one) (N.mul (N.add A one) cosw0))
    let a2 := N.sub (N.sub (N.add A one) (N.mul (N.sub A one) cosw0)) s'
    ∃ t, run (.fdHsh fs f q g) s = .next t ∧ t.regs = s.regs ∧
      CtrlAnswered s t [N.div b0 a0, N.div b1 a0, N.div b2 a0, N.div a1 a0, N.div a2 a0]) ∧
  ∀ (P : ClampParams) (fs f q g : ℝ), 0 < fs →
    let w0 := 2 * Real.pi * min (max f 0) (P.nyqFrac * (fs / 2)) / fs
    let alpha := Real.sin w0 / (2 * max q P.qFloor)
    let cosw0 := Real.cos w0
    let A := (10 : ℝ) ^ (g / 40)
    let b0 := A * ((A + 1) + (A - 1) * cosw0 + 2 * Real.sqrt A * alpha)
    let b1 := -2 * A * ((A - 1) + (A + 1) * cosw0)
    let b2 := A * ((A + 1) + (A - 1) * cosw0 - 2 * Real.sqrt A * alpha)
    let a0 := (A + 1) - (A - 1) * cosw0 + 2 * Real.sqrt A * alpha
    let a1 := 2 * ((A - 1) - (A + 1) * cosw0)
    let a2 := (A + 1) - (A - 1) * cosw0 - 2 * Real.sqrt A * alpha
    design real P .highShelf fs f q g = some { ff := b0 / a0, c1 := b1 / a0, c2 := b2 / a0, d1 := a1 / a0, d2 := a2 / a0 }

/-- 41_filter_designer.md R109, likewise, with its corner case that c1 = d1 for every operand and every numeric
record. -/
def Obligations.FdPeakReturnsTheBell : Prop :=
  (OnEveryBuild fun B run => ∀ (fs f q g : NUM) (s : State), PositiveRate B.num fs →
    let N := B.num
    let one := N.lit 1
    let two := N.lit 2
    let qc := maxN N q (N.lit B.clamps.qFloor)
    let fc := minN N (maxN N f (N.lit 0)) (N.mul (N.lit B.clamps.nyqFrac) (N.div fs two))
    let A := N.pow10 (N.div g (N.lit 40))
    let w0 := N.div (N.mul (N.mul two N.pi) fc) fs
    let alpha := N.div (N.sin w0) (N.mul two qc)
    let cosw0 := N.cos w0
    let b0 := N.add one (N.mul alpha A)
    let b1 := N.mul (N.lit (-2)) cosw0
    let b2 := N.sub one (N.mul alpha A)
    let a0 := N.add one (N.div alpha A)
    let a1 := N.mul (N.lit (-2)) cosw0
    let a2 := N.sub one (N.div alpha A)
    ∃ t, run (.fdPeak fs f q g) s = .next t ∧ t.regs = s.regs ∧
      CtrlAnswered s t [N.div b0 a0, N.div b1 a0, N.div b2 a0, N.div a1 a0, N.div a2 a0]) ∧
  (∀ (P : ClampParams) (fs f q g : ℝ), 0 < fs →
    let w0 := 2 * Real.pi * min (max f 0) (P.nyqFrac * (fs / 2)) / fs
    let alpha := Real.sin w0 / (2 * max q P.qFloor)
    let cosw0 := Real.cos w0
    let A := (10 : ℝ) ^ (g / 40)
    let b0 := 1 + alpha * A
    let b1 := -2 * cosw0
    let b2 := 1 - alpha * A
    let a0 := 1 + alpha / A
    let a1 := -2 * cosw0
    let a2 := 1 - alpha / A
    design real P .peaking fs f q g = some { ff := b0 / a0, c1 := b1 / a0, c2 := b2 / a0, d1 := a1 / a0, d2 := a2 / a0 }) ∧
  ∀ (α : Type) (N : Numerics α) (P : ClampParams) (fs f q g : α) (k : Coeffs α),
    design N P .peaking fs f q g = some k → k.c1 = k.d1

/-- 41_filter_designer.md R101. -/
def Obligations.DesignerRefusesNonpositiveRate : Prop :=
  OnEveryBuild fun B run => ∀ (fs f q g : NUM) (s : State),
    (run (.fdLsh fs f q g) s = .refused .nonpositiveSampleRate ↔ B.num.le fs (B.num.lit 0) = true) ∧
    (run (.fdPeak fs f q g) s = .refused .nonpositiveSampleRate ↔ B.num.le fs (B.num.lit 0) = true) ∧
    (run (.fdHsh fs f q g) s = .refused .nonpositiveSampleRate ↔ B.num.le fs (B.num.lit 0) = true)

/-- 41_filter_designer.md R116: a designer's answer does not depend on the state, and a setter repeated installs the
same tuple. -/
def Obligations.DesignerIsPureAndSettersIdempotent : Prop :=
  OnEveryBuild fun _ run =>
    (∀ (fs f q g : NUM) (s s' : State) (i : Instr),
      i = .fdLsh fs f q g ∨ i = .fdPeak fs f q g ∨ i = .fdHsh fs f q g →
      ∀ t t', run i s = .next t → run i s' = .next t' →
        t.regs = s.regs ∧ t.ctrl.responses.getLast? = t'.ctrl.responses.getLast?) ∧
    ∀ (b : Band) (pot : NUM) (s t u : State),
      run (setterOf b pot) s = .next t → run (setterOf b pot) t = .next u → u.regs = t.regs

/-- 41_filter_designer.md R102, in exact arithmetic. -/
def Obligations.DesignerClampsItsOperands : Prop :=
  ∀ U : Units,
  (∀ (P : ClampParams) (fs f q : NUM), clampQ (exactNum U) P q = max q P.qFloor ∧
    clampF (exactNum U) P fs f = min (max f 0) (P.nyqFrac * (fs / 2)) ∧
    (P.qFloor ≤ q → clampQ (exactNum U) P q = q) ∧
    (0 ≤ f → f ≤ P.nyqFrac * (fs / 2) → clampF (exactNum U) P fs f = f)) ∧
  (∀ (P : ClampParams) (sh : Shape) (fs f q g : NUM), design (exactNum U) P sh fs f q g =
    design (exactNum U) P sh fs (clampF (exactNum U) P fs f) (clampQ (exactNum U) P q) g) ∧
  ∀ (b : Band) (fs : NUM), 80000 / 9 ≤ fs → clampF (exactNum U) ClampParams.default fs (bandF0 b) = bandF0 b ∧
    clampQ (exactNum U) ClampParams.default (bandQ b) = bandQ b

/-- 41_filter_designer.md R103 to R106, in REAL. -/
def Obligations.SharedTermsStayInRange : Prop :=
  (∀ g : ℝ, amplitude real g = (10 : ℝ) ^ (g / 40) ∧ 0 < amplitude real g ∧
    amplitude real (-g) = 1 / amplitude real g) ∧
  amplitude real 0 = 1 ∧
  ∀ (P : ClampParams) (fs f q g : ℝ), 0 < fs →
    let w0 := omega0 real fs (clampF real P fs f)
    let t := sharedTerms real P fs f q g
    w0 = 2 * Real.pi * clampF real P fs f / fs ∧ 0 ≤ w0 ∧ w0 ≤ (P.nyqFrac : ℝ) * Real.pi ∧
      (P.nyqFrac : ℝ) * Real.pi < Real.pi ∧
    t.amp = amplitude real g ∧ t.cosw0 = Real.cos w0 ∧
    t.alpha = Real.sin w0 / (2 * clampQ real P q) ∧ 0 ≤ t.alpha ∧ (t.alpha = 0 ↔ w0 = 0)

/-- 41_filter_designer.md R113. -/
def Obligations.DesignerNeverDividesByZeroInReal : Prop :=
  ∀ (P : ClampParams) (fs f q g : ℝ), 0 < fs →
    let t := sharedTerms real P fs f q g
    (2 * (P.qFloor : ℝ) ≤ 2 * clampQ real P q ∧ 0 < 2 * (P.qFloor : ℝ)) ∧ 0 < t.amp ∧ 0 < min t.amp 1 ∧
    2 * min t.amp 1 ≤ (rawLowShelf real t).a0 ∧ 2 * min t.amp 1 ≤ (rawHighShelf real t).a0 ∧
    1 ≤ (rawPeaking real t).a0 ∧ ∀ sh, ∃ k, design real P sh fs f q g = some k

/-- 41_filter_designer.md R114 and 42_three_band_equalizer.md R147, the flatness: at 0 dB the three designers give an
identity, and the equalizer with all controls at one half returns its input. -/
def Obligations.FlatAtZeroDecibels : Prop :=
  (∀ (P : ClampParams) (fs f q : ℝ), 0 < fs →
    let t := sharedTerms real P fs f q 0
    (∀ r ∈ [rawLowShelf real t, rawHighShelf real t], r.b0 = 2 + 2 * t.alpha ∧ r.a0 = 2 + 2 * t.alpha ∧
      r.b1 = -4 * t.cosw0 ∧ r.a1 = -4 * t.cosw0 ∧ r.b2 = 2 - 2 * t.alpha ∧ r.a2 = 2 - 2 * t.alpha) ∧
    ((rawPeaking real t).b0 = 1 + t.alpha ∧ (rawPeaking real t).a0 = 1 + t.alpha ∧
      (rawPeaking real t).b1 = -2 * t.cosw0 ∧ (rawPeaking real t).a1 = -2 * t.cosw0 ∧
      (rawPeaking real t).b2 = 1 - t.alpha ∧ (rawPeaking real t).a2 = 1 - t.alpha)) ∧
  (∀ (P : ClampParams) (sh : Shape) (fs f q : ℝ), 0 < fs →
    ∃ k, design real P sh fs f q 0 = some k ∧ k.ff = 1 ∧ k.c1 = k.d1 ∧ k.c2 = k.d2) ∧
  ∀ (P : ClampParams) (fs : ℝ) (r : Regs ℝ), 0 < fs → r.rate = some fs → ∃ r1 r2 r3,
    setBand real P .bass (1 / 2) r = some r1 ∧ setBand real P .mid (1 / 2) r1 = some r2 ∧
    setBand real P .treble (1 / 2) r2 = some r3 ∧ ∀ xs, cascadeRun real r3 xs = xs

/-- 41_filter_designer.md R115. -/
def Obligations.ClosedFormsOfTheFeedback : Prop :=
  ∀ (P : ClampParams) (fs f q g : ℝ), 0 < fs →
    let t := sharedTerms real P fs f q g
    let A := t.amp
    let c := t.cosw0
    let s := 2 * Real.sqrt A * t.alpha
    (∃ k, design real P .lowShelf fs f q g = some k ∧
      k.p1 real = 2 * (A ^ 2 - 1) * (1 - c) / (rawLowShelf real t).a0 ∧
      k.p2 real = (A - 1) * ((A + 1) * (1 - c) - s) / (rawLowShelf real t).a0) ∧
    (∃ k, design real P .highShelf fs f q g = some k ∧
      k.p1 real = -2 * (A ^ 2 - 1) * (1 + c) / (rawHighShelf real t).a0 ∧
      k.p2 real = (A - 1) * ((A + 1) * (1 + c) - s) / (rawHighShelf real t).a0) ∧
    (∃ k, design real P .peaking fs f q g = some k ∧ k.p1 real = 0 ∧
      k.p2 real = t.alpha * (1 - A ^ 2) / (A + t.alpha))

/-- 41_filter_designer.md R107, the corner case `fc = 0`: an identity section for every gain. -/
def Obligations.LowShelfAtZeroFrequency : Prop :=
  ∀ (P : ClampParams) (fs f q g : ℝ), 0 < fs → f ≤ 0 →
    design real P .lowShelf fs f q g = some { ff := 1, c1 := -2, c2 := 1, d1 := -2, d2 := 1 }

/-- 41_filter_designer.md R112, as a hypothesis about a numeric record and never assumed of the machine: a record that
meets it is flat at 0 dB (R114) to within the tolerance. The design in REAL is the identity tuple `k'`, whose c1 = d1 and
c2 = d2 are what the record's two pairs are both close to. -/
def Obligations.AccuracyContractBoundsTheFlatDesign : Prop :=
  ∀ (α : Type) (N : Numerics α) (val : α → ℝ) (P : ClampParams), MeetsAccuracyContract N val P →
    ∀ (sh : Shape) (fs f q g : α) (k : Coeffs α), 0 < val fs → val g = 0 → design N P sh fs f q g = some k →
      ∃ k', design real P sh (val fs) (val f) (val q) 0 = some k' ∧
        |val k.ff - 1| ≤ 1 / 10000 ∧
        (|val k.c1 - k'.c1| ≤ 1 / 10000 * max 1 |k'.c1| ∧ |val k.d1 - k'.c1| ≤ 1 / 10000 * max 1 |k'.c1|) ∧
        |val k.c2 - k'.c2| ≤ 1 / 10000 * max 1 |k'.c2| ∧ |val k.d2 - k'.c2| ≤ 1 / 10000 * max 1 |k'.c2|

/-- 70_reset_and_hazards.md R189, at 48000 Hz with the default clamps: full treble boost fails the stability test, and
treble at 0 dB and at full cut passes it. -/
def Obligations.TrebleBoostIsUnstable : Prop :=
  (∃ k, designBand real ClampParams.default .treble 48000 0 = some k ∧ 1 < k.p2 real ∧
    ¬ StabilityTest (k.p1 real) (k.p2 real)) ∧
  (∃ k, designBand real ClampParams.default .treble 48000 (1 / 2) = some k ∧
    StabilityTest (k.p1 real) (k.p2 real)) ∧
  ∃ k, designBand real ClampParams.default .treble 48000 1 = some k ∧ StabilityTest (k.p1 real) (k.p2 real)

/-- 70_reset_and_hazards.md R189, at 48000 Hz with the default clamps: bass and mid pass the stability test at every
control reading. -/
def Obligations.BassAndMidAreStable : Prop :=
  ∀ pot : ℝ,
    (∃ k, designBand real ClampParams.default .bass 48000 pot = some k ∧ StabilityTest (k.p1 real) (k.p2 real)) ∧
    ∃ k, designBand real ClampParams.default .mid 48000 pot = some k ∧ StabilityTest (k.p1 real) (k.p2 real)

/-! ### The equalizer operations -/

/-- 42_three_band_equalizer.md R141, whose steps are those of 30_encoding.md R70 (notes/assumptions/8.md): four steps of
CTRL, each after the first zeroing one section whole (40_biquad_section.md R81, notes/assumptions/9.md). -/
def Obligations.EqInitStoresTheRateAndZeroes : Prop :=
  OnEveryBuild fun B run => ∀ (fs : NUM) (s : State),
    (rateBad B.num fs = true → run (.eqInit fs) s = .refused .nonpositiveSampleRate) ∧
    (PositiveRate B.num fs → ∃ t t0 t1 t2,
      (run (.eqInit fs) s = .next t ∧ t.regs.rate = some fs ∧ (∀ b, t.regs.sec b = s.regs.sec b) ∧
        OnlyCtrlMoved s t ∧ t.ctrl.busy = some .bass ∧ t.ctrl.responses = s.ctrl.responses) ∧
      (stepPort B run .ctrl t = .next t0 ∧
        t0.regs.sec .bass = { s.regs.sec .bass with z1 := B.num.lit 0, z2 := B.num.lit 0 } ∧
        OnlySection .bass t.regs t0.regs) ∧
      (stepPort B run .ctrl t0 = .next t1 ∧
        t1.regs.sec .mid = { s.regs.sec .mid with z1 := B.num.lit 0, z2 := B.num.lit 0 } ∧
        OnlySection .mid t0.regs t1.regs) ∧
      (stepPort B run .ctrl t1 = .next t2 ∧
        t2.regs.sec .treble = { s.regs.sec .treble with z1 := B.num.lit 0, z2 := B.num.lit 0 } ∧
        OnlySection .treble t1.regs t2.regs) ∧
      CtrlAnswered s t2 []) ∧
    encode (.eqInit fs) = { header := 0x80, ops := [fs] } ∧ (Instr.eqInit fs).port = .ctrl

/-- 42_three_band_equalizer.md R142: bass, then mid, then treble, three steps of AUDIO. -/
def Obligations.EqProcRunsTheCascade : Prop :=
  OnEveryBuild fun B run => ∀ (x : NUM) (s : State),
    let u := recurrence B.num s.regs.bass x
    let v := recurrence B.num s.regs.mid u
    let y := recurrence B.num s.regs.treble v
    (∃ t t1 t2,
      (run (.eqProc x) s = .next t ∧ t.regs.bass = { s.regs.bass with z1 := u, z2 := s.regs.bass.z1 } ∧
        OnlySection .bass s.regs t.regs ∧ OnlyAudioMoved s t ∧ t.audio.busy = some (.mid u) ∧
        t.audio.responses = s.audio.responses) ∧
      (stepPort B run .audio t = .next t1 ∧ t1.regs.mid = { s.regs.mid with z1 := v, z2 := s.regs.mid.z1 } ∧
        OnlySection .mid t.regs t1.regs) ∧
      (stepPort B run .audio t1 = .next t2 ∧
        t2.regs.treble = { s.regs.treble with z1 := y, z2 := s.regs.treble.z1 } ∧
        OnlySection .treble t1.regs t2.regs) ∧
      AudioAnswered s t2 [y]) ∧
    encode (.eqProc x) = { header := 0xC0, ops := [x] } ∧ (Instr.eqProc x).port = .audio

/-- 42_three_band_equalizer.md R143: its pseudocode in every numeric domain, its properties in REAL, where the rules mean
them (00_scope.md R12), and the same in exact rational arithmetic. That the properties are read at these two named
records is the model's way of stating them (notes/assumptions/17.md). -/
def Obligations.GainLawIsInvertedAndBounded : Prop :=
  (∀ (α : Type) (N : Numerics α) (pot maxDb : α), gainDb N pot maxDb =
    N.mul (N.mul (N.sub (N.lit (1 / 2)) (minN N (maxN N pot (N.lit 0)) (N.lit 1))) (N.lit 2)) maxDb) ∧
  (∀ pot maxDb : ℝ,
    gainDb real pot maxDb = ((1 / 2 - min (max pot 0) 1) * 2) * maxDb ∧
    (0 < maxDb → -maxDb ≤ gainDb real pot maxDb ∧ gainDb real pot maxDb ≤ maxDb) ∧
    (pot ≤ 0 → gainDb real pot maxDb = maxDb) ∧ (1 ≤ pot → gainDb real pot maxDb = -maxDb) ∧
    gainDb real (1 / 2) maxDb = 0 ∧
    ∀ pot', 0 < maxDb → 0 ≤ pot → pot < pot' → pot' ≤ 1 → gainDb real pot' maxDb < gainDb real pot maxDb) ∧
  ∀ (U : Units) (pot maxDb : NUM),
    gainDb (exactNum U) pot maxDb = ((1 / 2 - min (max pot 0) 1) * 2) * maxDb ∧
    (0 < maxDb → -maxDb ≤ gainDb (exactNum U) pot maxDb ∧ gainDb (exactNum U) pot maxDb ≤ maxDb) ∧
    (pot ≤ 0 → gainDb (exactNum U) pot maxDb = maxDb) ∧ (1 ≤ pot → gainDb (exactNum U) pot maxDb = -maxDb) ∧
    gainDb (exactNum U) (1 / 2) maxDb = 0 ∧
    ∀ pot', 0 < maxDb → 0 ≤ pot → pot < pot' → pot' ≤ 1 →
      gainDb (exactNum U) pot' maxDb < gainDb (exactNum U) pot maxDb

/-- 42_three_band_equalizer.md R144. -/
def Obligations.EqSetBassInstallsTheLowShelf : Prop :=
  OnEveryBuild fun B run => ∀ (pot : NUM) (s : State),
    let N := B.num
    (s.regs.rate = none → run (.eqSetBass pot) s = .refused .setterBeforeInit) ∧
    (∀ fs, s.regs.rate = some fs → PositiveRate N fs → ∃ k t,
      design N B.clamps .lowShelf fs (N.lit 80) (N.lit (707 / 1000)) (gainDb N pot (N.lit 15)) = some k ∧
      run (.eqSetBass pot) s = .next t ∧ t.regs.sec .bass = { s.regs.sec .bass with coef := k } ∧
      OnlySection .bass s.regs t.regs ∧ CtrlAnswered s t []) ∧
    encode (.eqSetBass pot) = { header := 0x90, ops := [pot] } ∧ (Instr.eqSetBass pot).port = .ctrl

/-- 42_three_band_equalizer.md R145. -/
def Obligations.EqSetMidInstallsTheBell : Prop :=
  OnEveryBuild fun B run => ∀ (pot : NUM) (s : State),
    let N := B.num
    (s.regs.rate = none → run (.eqSetMid pot) s = .refused .setterBeforeInit) ∧
    (∀ fs, s.regs.rate = some fs → PositiveRate N fs → ∃ k t,
      design N B.clamps .peaking fs (N.lit 800) (N.lit 1) (gainDb N pot (N.lit 12)) = some k ∧ k.c1 = k.d1 ∧
      run (.eqSetMid pot) s = .next t ∧ t.regs.sec .mid = { s.regs.sec .mid with coef := k } ∧
      OnlySection .mid s.regs t.regs ∧ CtrlAnswered s t []) ∧
    encode (.eqSetMid pot) = { header := 0x91, ops := [pot] } ∧ (Instr.eqSetMid pot).port = .ctrl

/-- 42_three_band_equalizer.md R146, less its remarks on stability. -/
def Obligations.EqSetTrebInstallsTheHighShelf : Prop :=
  OnEveryBuild fun B run => ∀ (pot : NUM) (s : State),
    let N := B.num
    (s.regs.rate = none → run (.eqSetTreb pot) s = .refused .setterBeforeInit) ∧
    (∀ fs, s.regs.rate = some fs → PositiveRate N fs → ∃ k t,
      design N B.clamps .highShelf fs (N.lit 4000) (N.lit (707 / 1000)) (gainDb N pot (N.lit 15)) = some k ∧
      run (.eqSetTreb pot) s = .next t ∧ t.regs.sec .treble = { s.regs.sec .treble with coef := k } ∧
      OnlySection .treble s.regs t.regs ∧ CtrlAnswered s t []) ∧
    encode (.eqSetTreb pot) = { header := 0x92, ops := [pot] } ∧ (Instr.eqSetTreb pot).port = .ctrl

/-- 42_three_band_equalizer.md R144 to R146, their worked examples in REAL at 48000 Hz with the default clamps, to the
tolerance the source's test asks for (41_filter_designer.md R112). -/
def Obligations.SettersReproduceTheWorkedExamples : Prop :=
  let near := fun (k : Coeffs ℝ) (ff c1 c2 d1 d2 : ℝ) => |k.ff - ff| ≤ 1 / 10000 ∧ |k.c1 - c1| ≤ 1 / 10000 ∧
    |k.c2 - c2| ≤ 1 / 10000 ∧ |k.d1 - d1| ≤ 1 / 10000 ∧ |k.d2 - d2| ≤ 1 / 10000
  (∃ k, designBand real ClampParams.default .bass 48000 0 = some k ∧
    near k 1.006616921 (-1.990275104) 0.9839169903 (-1.990381496) 0.9904275188) ∧
  (∃ k, designBand real ClampParams.default .mid 48000 0 = some k ∧
    near k 1.076093481 (-1.938272363) 0.8728554285 (-1.938272363) 0.9489489094) ∧
  (∃ k, designBand real ClampParams.default .mid 48000 1 = some k ∧
    near k 0.9292872950 (-1.801211881) 0.8818461651 (-1.801211881) 0.8111334601) ∧
  (∃ k, designBand real ClampParams.default .treble 48000 0 = some k ∧
    near k 4.092444805 (-6.218388594) 2.514241485 (-0.9461794815) 0.3344771783) ∧
  ∃ k, designBand real ClampParams.default .treble 48000 1 = some k ∧
    near k 0.2443527152 (-0.2312015254) 0.08173040671 (-1.519480137) 0.6143617337

/-- 42_three_band_equalizer.md R148: in REAL, from rest and with tuples that do not change, any order of the three
sections gives the same outputs (two exchanges of neighbours give every order); from other states, or when a tuple
changes during the run (the case of 95_test_vectors.md P5: 29/72 against 23/72), the orders need not agree. -/
def Obligations.SeriesOrderFromRestWithFixedTuples : Prop :=
  (∀ (k1 k2 k3 : Coeffs ℝ) (fs : ℝ) (written : Bool) (xs : List ℝ),
    let run := fun a b c : Coeffs ℝ => cascadeRun real
      { bass := restingSection real a, mid := restingSection real b, treble := restingSection real c,
        fs := fs, fsWritten := written } xs
    run k1 k2 k3 = run k2 k1 k3 ∧ run k1 k2 k3 = run k1 k3 k2) ∧
  (∃ (c1 c2 c3 : BiquadSection ℝ) (x : ℝ),
    cascadeOut real { bass := c1, mid := c2, treble := c3, fs := 0, fsWritten := false } x ≠
      cascadeOut real { bass := c2, mid := c1, treble := c3, fs := 0, fsWritten := false } x) ∧
  let a : Coeffs ℝ := { ff := 1, c1 := 1 / 2, c2 := 0, d1 := 0, d2 := 0 }
  let a' : Coeffs ℝ := { ff := 1, c1 := 1 / 4, c2 := 0, d1 := 0, d2 := 0 }
  let b : Coeffs ℝ := { ff := 1, c1 := 1 / 3, c2 := 0, d1 := 0, d2 := 0 }
  let i : Coeffs ℝ := { ff := 1, c1 := 0, c2 := 0, d1 := 0, d2 := 0 }
  let start := fun k k' : Coeffs ℝ =>
    ({ bass := restingSection real k, mid := restingSection real k', treble := restingSection real i,
       fs := 0, fsWritten := false } : Regs ℝ)
  cascadeOut real ((cascadeRegs real (cascadeRegs real (start a b) 1) 0).setCoef .bass a') 0 = 29 / 72 ∧
    cascadeOut real ((cascadeRegs real (cascadeRegs real (start b a) 1) 0).setCoef .mid a') 0 = 23 / 72

/-! ### The machine -/

/-- 20_memory.md R50, R57: a step that takes a command off a port runs the operation it names, on the state with that
command taken; and this machine is the machine of its own build. -/
def Obligations.StepRunsTheDecodedInstruction : Prop :=
  exec = execOn Config.build ∧ step = stepOn Config.build ∧
  (∀ (s : State) (p : Port) (c : Command) (i : Instr), s.takes Config.build p c → decode p c = .ok i →
    step s = exec i (s.setQueue p (s.queueOf p).tail)) ∧
  ∀ (B : Build) (s : State) (p : Port) (c : Command) (i : Instr), s.takes B p c → decode p c = .ok i →
    stepOn B s = execOn B i (s.setQueue p (s.queueOf p).tail)

/-- 30_encoding.md R70: a port that is inside a composite goes on with it. -/
def Obligations.StepResumesTheComposite : Prop :=
  OnEveryMachine fun B stp =>
    (∀ (s : State) (rest : EqProcRest), s.mover B = some .audio → s.audio.busy = some rest →
      stp s = .next (resumeEqProc B rest s)) ∧
    ∀ (s : State) (rest : EqInitRest), s.mover B = some .ctrl → s.ctrl.busy = some rest →
      stp s = .next (resumeEqInit B rest s)

/-- 10_state.md R29, 70_reset_and_hazards.md R182: with nothing in progress and nothing waiting the block waits, which
changes nothing (the model's choice, notes/assumptions/12.md). -/
def Obligations.IdleBlockWaits : Prop :=
  OnEveryMachine fun _ stp => ∀ s : State, s.audio.busy = none → s.audio.queue = [] → s.ctrl.busy = none →
    s.ctrl.queue = [] → stp s = .next s

/-- 20_memory.md R49, R50 and 10_state.md R34: where both ports have work the build's interleaving says which moves.
Every interleaving is the run of some build with the same numbers and clamps, and every run is an interleaving. -/
def Obligations.EitherPortMayMoveFirst : Prop :=
  (∀ (B : Build) (s : State), s.audio.hasWork = true → s.ctrl.hasWork = true →
    stepOn B s = stepPort B (execOn B) (B.turn s) s) ∧
  (∀ (B : Build) (s : State), s.audio.hasWork = true → s.ctrl.hasWork = false →
    stepOn B s = stepPort B (execOn B) .audio s) ∧
  (∀ (B : Build) (s : State), s.audio.hasWork = false → s.ctrl.hasWork = true →
    stepOn B s = stepPort B (execOn B) .ctrl s) ∧
  (∀ (B : Build) (ps : List Port) (s t : State), Interleaved B (execOn B) ps s t →
    ∃ turn, runSteps (stepOn { B with turn := turn }) ps.length s = .next t) ∧
  ∀ (B : Build) (n : Nat) (s t : State), runSteps (stepOn B) n s = .next t →
    ∃ ps, ps.length ≤ n ∧ Interleaved B (execOn B) ps s t

/-- 10_state.md R23 and 20_memory.md R47: a coefficient bank changes only whole, and only to the operands of a BQ.SETC
of that section or to the design of that band's setter. -/
def Obligations.OnlySetcAndSettersWriteCoefficients : Prop :=
  OnEveryMachine fun B stp => ∀ (s t : State), stp s = .next t → ∀ b : Band,
    (t.regs.sec b).coef = (s.regs.sec b).coef ∨
    (∃ ff c1 c2 d1 d2, s.startsNext B = some (.bqSetc b ff c1 c2 d1 d2) ∧
      (t.regs.sec b).coef = { ff := ff, c1 := c1, c2 := c2, d1 := d1, d2 := d2 }) ∨
    ∃ pot fs, s.startsNext B = some (setterOf b pot) ∧ s.regs.rate = some fs ∧
      designBand B.num B.clamps b fs pot = some (t.regs.sec b).coef

/-- 10_state.md R25 and 20_memory.md R55: in one step the delay pair of a section stays, shifts by the one sample the
step feeds to that section, or is zeroed whole by a BQ.RESET of it or by the EQ.INIT that has come to it. That a zeroing
is one step is decision D7 (notes/assumptions/9.md). -/
def Obligations.DelayPairsStayShiftOrZeroWhole : Prop :=
  OnEveryMachine fun B stp => ∀ (s t : State), stp s = .next t → ∀ b : Band,
    (∀ x, s.feeds B b x → OnlySection b s.regs t.regs ∧ t.regs.sec b =
      { s.regs.sec b with z1 := recurrence B.num (s.regs.sec b) x, z2 := (s.regs.sec b).z1 }) ∧
    (s.zeroes B b → OnlySection b s.regs t.regs ∧ t.regs.sec b =
      { s.regs.sec b with z1 := B.num.lit 0, z2 := B.num.lit 0 }) ∧
    ((∀ x, ¬ s.feeds B b x) → ¬ s.zeroes B b →
      (t.regs.sec b).z1 = (s.regs.sec b).z1 ∧ (t.regs.sec b).z2 = (s.regs.sec b).z2)

/-- 10_state.md R28 and 70_reset_and_hazards.md R181: FS is written only by EQ.INIT, and never loses its value. And
93_implementation_defined.md U4, 10_state.md R35: what FS powered up as shows in no response, no other register and no
refusal. Until FS is written, a step of either port does the same whatever its content `v` is, and leaves that content
alone or writes FS (notes/assumptions/5.md). -/
def Obligations.OnlyEqInitWritesTheRate : Prop :=
  (OnEveryMachine fun B stp => ∀ (s t : State), stp s = .next t →
    ((t.regs.fs = s.regs.fs ∧ t.regs.fsWritten = s.regs.fsWritten) ∨
      ∃ fs, PositiveRate B.num fs ∧ s.startsNext B = some (.eqInit fs) ∧ t.regs.rate = some fs) ∧
    (s.regs.fsWritten = true → t.regs.fsWritten = true)) ∧
  OnEveryBuild fun B run => ∀ (p : Port) (s : State) (v : NUM), s.regs.fsWritten = false →
    (∀ r, stepPort B run p s = .refused r ↔ stepPort B run p (s.withFsContent v) = .refused r) ∧
    ∀ t, stepPort B run p s = .next t →
      (t.regs.fsWritten = true → stepPort B run p (s.withFsContent v) = .next t) ∧
      (t.regs.fsWritten = false → t.regs.fs = s.regs.fs ∧
        stepPort B run p (s.withFsContent v) = .next (t.withFsContent v))

/-- 60_exceptions.md R170: what each context touches. -/
def Obligations.ContextsTouchOnlyTheirState : Prop :=
  OnEveryBuild fun B run =>
    (∀ (s t : State), stepPort B run .audio s = .next t →
      (∀ b, (t.regs.sec b).coef = (s.regs.sec b).coef) ∧ t.regs.fs = s.regs.fs ∧
        t.regs.fsWritten = s.regs.fsWritten ∧ t.ctrl = s.ctrl) ∧
    ∀ (s t : State), stepPort B run .ctrl s = .next t →
      (∀ b, ((t.regs.sec b).z1 = (s.regs.sec b).z1 ∧ (t.regs.sec b).z2 = (s.regs.sec b).z2) ∨
        ((t.regs.sec b).z1 = B.num.lit 0 ∧ (t.regs.sec b).z2 = B.num.lit 0)) ∧
      t.audio = s.audio

/-- 20_memory.md R52 and 30_encoding.md R60: what a port's step does depends on the registers and that port alone. -/
def Obligations.PortsNeverWaitForEachOther : Prop :=
  OnEveryBuild fun B run =>
    (∀ (s s' : State), s'.regs = s.regs → s'.audio = s.audio →
      (∀ t, stepPort B run .audio s = .next t →
        ∃ t', stepPort B run .audio s' = .next t' ∧ t'.regs = t.regs ∧ t'.audio = t.audio) ∧
      ∀ r, stepPort B run .audio s = .refused r → stepPort B run .audio s' = .refused r) ∧
    ∀ (s s' : State), s'.regs = s.regs → s'.ctrl = s.ctrl →
      (∀ t, stepPort B run .ctrl s = .next t →
        ∃ t', stepPort B run .ctrl s' = .next t' ∧ t'.regs = t.regs ∧ t'.ctrl = t.ctrl) ∧
      ∀ r, stepPort B run .ctrl s = .refused r → stepPort B run .ctrl s' = .refused r

/-- 20_memory.md R52, 40_biquad_section.md R80: a command that is not refused completes within three steps of AUDIO or
four of CTRL, with one response. -/
def Obligations.CommandsCompleteInBoundedSteps : Prop :=
  OnEveryBuild fun B run =>
    (∀ (s : State) (c : Command) (rest : List Command) (i : Instr), s.audio.busy = none →
      s.audio.queue = c :: rest → decode .audio c = .ok i →
      ∃ n t res, n ≤ 3 ∧ runPorts B run (List.replicate n .audio) s = .next t ∧ t.audio.busy = none ∧
        t.audio.queue = rest ∧ t.audio.responses = s.audio.responses ++ [res]) ∧
    ∀ (s : State) (c : Command) (rest : List Command) (i : Instr), s.ctrl.busy = none →
      s.ctrl.queue = c :: rest → decode .ctrl c = .ok i → (∀ r, run i s ≠ .refused r) →
      ∃ n t res, n ≤ 4 ∧ runPorts B run (List.replicate n .ctrl) s = .next t ∧ t.ctrl.busy = none ∧
        t.ctrl.queue = rest ∧ t.ctrl.responses = s.ctrl.responses ++ [res]

/-- 20_memory.md R57, 30_encoding.md R60: no step loses or adds a command, and the responses of a port only grow, by at
most one. -/
def Obligations.NoCommandIsLost : Prop :=
  OnEveryMachine fun _ stp => ∀ (s t : State), stp s = .next t →
    t.audio.presented = s.audio.presented ∧ t.ctrl.presented = s.ctrl.presented ∧
    (t.audio.responses = s.audio.responses ∨ ∃ r, t.audio.responses = s.audio.responses ++ [r]) ∧
    (t.ctrl.responses = s.ctrl.responses ∨ ∃ r, t.ctrl.responses = s.ctrl.responses ++ [r])

/-- 20_memory.md R56: a composite is not indivisible. Two BQ.SETC between the first and the second sub-step of an
EQ.PROC make it compute with the old tuple of section 0 and the new one of section 2. -/
def Obligations.SettersMayFallInsideEqProc : Prop :=
  OnEveryBuild fun B run => ∀ (s : State) (x : NUM) (k0 k2 : Coeffs NUM),
    let u := recurrence B.num s.regs.bass x
    let v := recurrence B.num s.regs.mid u
    let y := recurrence B.num { s.regs.treble with coef := k2 } v
    ∃ t1 t2 t3 t4, run (.eqProc x) s = .next t1 ∧
      run (.bqSetc .bass k0.ff k0.c1 k0.c2 k0.d1 k0.d2) t1 = .next t2 ∧
      run (.bqSetc .treble k2.ff k2.c1 k2.c2 k2.d1 k2.d2) t2 = .next t3 ∧
      runPorts B run [.audio, .audio] t3 = .next t4 ∧ t4.audio.responses = s.audio.responses ++ [[y]] ∧
      t4.regs.bass = { coef := k0, z1 := u, z2 := s.regs.bass.z1 } ∧
      t4.regs.treble = { coef := k2, z1 := y, z2 := s.regs.treble.z1 }

/-- 60_exceptions.md R172: the list of refusals is closed, and each is raised only where the list says. The premise
`FsPositive` rules out states no run reaches, in which FS holds a rate EQ.INIT would have refused. -/
def Obligations.RefusalsAreTheClosedList : Prop :=
  OnEveryMachine fun B stp => ∀ (s : State) (r : Refusal), FsPositive B.num s → stp s = .refused r →
    (r = .reservedHeader ∧ ∃ p c, s.takes B p c ∧ c.header ∉ validHeaders) ∨
    (r = .malformedOperands ∧ ∃ p c, s.takes B p c ∧ c.header ∈ validHeaders ∧
      c.ops.length ≠ operandCount c.header) ∨
    (r = .wrongPort ∧ ∃ p c, s.takes B p c ∧ c.header ∈ validHeaders ∧ p ≠ rightPort c.header) ∨
    (r = .nonpositiveSampleRate ∧ ∃ fs, B.num.le fs (B.num.lit 0) = true ∧ (s.startsNext B = some (.eqInit fs) ∨
      ∃ f q g, s.startsNext B = some (.fdLsh fs f q g) ∨ s.startsNext B = some (.fdPeak fs f q g) ∨
        s.startsNext B = some (.fdHsh fs f q g))) ∨
    (r = .setterBeforeInit ∧ s.regs.rate = none ∧ ∃ b pot, s.startsNext B = some (setterOf b pot))

/-- 10_state.md R28, 30_encoding.md R64, 42_three_band_equalizer.md R141: the invariant `Inv`, kept by every step. -/
def Obligations.EveryStepKeepsTheInvariant : Prop :=
  OnEveryMachine fun B stp => ∀ (s t : State), Inv B.num s → stp s = .next t → Inv B.num t

/-- 10_state.md R35: the power-on state meets the invariant, and mutes at every section. -/
def Obligations.ResetMeetsTheInvariants : Prop :=
  (Inv Config.numerics State.reset ∧ ∀ b : Band, MutedAt Config.numerics b State.reset) ∧
  ∀ (N : Numerics NUM) (v : NUM), Inv N (State.resetOn N v) ∧ ∀ b : Band, MutedAt N b (State.resetOn N v)

/-- 70_reset_and_hazards.md R184: while section `b` has not been loaded since power-on and AUDIO issues no BQ.PROC, every
answer of AUDIO is zero, on every build whose numbers have the laws of zero that 40_biquad_section.md R86 names. -/
def Obligations.MuteLastsUntilTheSectionIsLoaded : Prop :=
  OnEveryMachine fun B stp => ∀ (b : Band) (s t : State), ZeroLaws B.num → MutedAt B.num b s → stp s = .next t →
    (∀ i, s.startsNext B = some i → loadsCoefs i b = false ∧ isBqProc i = false) → MutedAt B.num b t

/-! ### The numeric domain -/

/-- 00_scope.md R11, R13 and 40_biquad_section.md R90: every instance with countably many values, rounding, saturating or
with values that are no numbers, can be given to the machine. Coded, its BQ.PROC and its designer commands compute the
codes of what the instance computes. -/
def Obligations.EveryCountableInstanceCanBeStepped : Prop :=
  ∀ (α : Type) [Countable α] [Nonempty α] (N : Numerics α), ∃ (code : α → NUM) (value : NUM → α),
    (∀ a, value (code a) = a) ∧
    (∀ (P : ClampParams) (sh : Shape) (fs f q g : α),
      design (codedNum N code value) P sh (code fs) (code f) (code q) (code g) =
        (design N P sh fs f q g).map (Coeffs.map code)) ∧
    (∀ v : α, State.resetOn (codedNum N code value) (code v) =
      { State.resetOn (codedNum N code value) (code v) with regs := (Regs.powerOn N v).map code }) ∧
    ∀ (B : Build) (b : Band) (x : α) (s : State) (r : Regs α), B.num = codedNum N code value → s.regs = r.map code →
      ∃ t, execOn B (.bqProc b (code x)) s = .next t ∧ t.regs = (r.proc N b x).map code ∧
        AudioAnswered s t [code (r.procOut N b x)]
end

