-- ==== Sys2Proof/Laws/State.lean ====
section
/-! SUPPORT. What each update of a record does to each field, so that no later proof unfolds an update. -/

namespace Sys2Proof.Machine

variable {α : Type}

/-! ### Registers -/

@[simp] theorem Regs.sec_bass (r : Regs α) : r.sec .bass = r.bass := rfl
@[simp] theorem Regs.sec_mid (r : Regs α) : r.sec .mid = r.mid := rfl
@[simp] theorem Regs.sec_treble (r : Regs α) : r.sec .treble = r.treble := rfl

@[simp] theorem Regs.sec_setSec_self (r : Regs α) (b : Band) (c : BiquadSection α) :
    (r.setSec b c).sec b = c := by cases b <;> rfl

@[simp] theorem Regs.sec_setSec_ne (r : Regs α) {b b' : Band} (c : BiquadSection α) (h : b' ≠ b) :
    (r.setSec b c).sec b' = r.sec b' := by
  cases b <;> cases b' <;> first | rfl | exact absurd rfl h

@[simp] theorem Regs.setSec_fs (r : Regs α) (b : Band) (c : BiquadSection α) : (r.setSec b c).fs = r.fs := by
  cases b <;> rfl

@[simp] theorem Regs.setSec_fsWritten (r : Regs α) (b : Band) (c : BiquadSection α) :
    (r.setSec b c).fsWritten = r.fsWritten := by cases b <;> rfl

@[simp] theorem Regs.setSec_rate (r : Regs α) (b : Band) (c : BiquadSection α) : (r.setSec b c).rate = r.rate := by
  simp [Regs.rate]

/-- FS holds a value exactly when it has been written. -/
theorem Regs.rate_eq_none {r : Regs α} : r.rate = none ↔ r.fsWritten = false := by
  cases h : r.fsWritten <;> simp [Regs.rate, h]

/-- The value FS holds is its content, once it has been written. -/
theorem Regs.rate_eq_some {r : Regs α} {fs : α} : r.rate = some fs ↔ r.fsWritten = true ∧ r.fs = fs := by
  cases h : r.fsWritten <;> simp [Regs.rate, h]

@[simp] theorem Regs.setSec_sec (r : Regs α) (b : Band) : r.setSec b (r.sec b) = r := by cases b <;> rfl

/-- Writes to different sections can be exchanged. -/
theorem Regs.setSec_comm (r : Regs α) {b b' : Band} (c c' : BiquadSection α) (h : b ≠ b') :
    (r.setSec b c).setSec b' c' = (r.setSec b' c').setSec b c := by
  cases b <;> cases b' <;> first | rfl | exact absurd rfl h

/-- Registers are equal when the three sections and FS are. -/
theorem Regs.ext_sec {r r' : Regs α} (h : ∀ b, r.sec b = r'.sec b) (hfs : r.fs = r'.fs)
    (hw : r.fsWritten = r'.fsWritten) : r = r' := by
  obtain ⟨a, b, c, d, e⟩ := r
  obtain ⟨a', b', c', d', e'⟩ := r'
  have h1 := h .bass
  have h2 := h .mid
  have h3 := h .treble
  simp only [Regs.sec_bass, Regs.sec_mid, Regs.sec_treble] at h1 h2 h3 hfs hw
  subst h1 h2 h3 hfs hw
  rfl

@[simp] theorem Regs.setCoef_fs (r : Regs α) (b : Band) (k : Coeffs α) : (r.setCoef b k).fs = r.fs := by
  simp [Regs.setCoef]
@[simp] theorem Regs.setCoef_fsWritten (r : Regs α) (b : Band) (k : Coeffs α) :
    (r.setCoef b k).fsWritten = r.fsWritten := by simp [Regs.setCoef]
@[simp] theorem Regs.setCoef_rate (r : Regs α) (b : Band) (k : Coeffs α) : (r.setCoef b k).rate = r.rate := by
  simp [Regs.setCoef]
@[simp] theorem Regs.setCoef_self (r : Regs α) (b : Band) (k : Coeffs α) :
    (r.setCoef b k).sec b = { r.sec b with coef := k } := by simp [Regs.setCoef]
@[simp] theorem Regs.setCoef_ne (r : Regs α) {b b' : Band} (k : Coeffs α) (h : b' ≠ b) :
    (r.setCoef b k).sec b' = r.sec b' := by simp [Regs.setCoef, h]

@[simp] theorem Regs.setDelays_fs (r : Regs α) (b : Band) (z1 z2 : α) : (r.setDelays b z1 z2).fs = r.fs := by
  simp [Regs.setDelays]
@[simp] theorem Regs.setDelays_fsWritten (r : Regs α) (b : Band) (z1 z2 : α) :
    (r.setDelays b z1 z2).fsWritten = r.fsWritten := by simp [Regs.setDelays]
@[simp] theorem Regs.setDelays_rate (r : Regs α) (b : Band) (z1 z2 : α) : (r.setDelays b z1 z2).rate = r.rate := by
  simp [Regs.setDelays]
@[simp] theorem Regs.setDelays_self (r : Regs α) (b : Band) (z1 z2 : α) :
    (r.setDelays b z1 z2).sec b = { r.sec b with z1 := z1, z2 := z2 } := by simp [Regs.setDelays]
@[simp] theorem Regs.setDelays_ne (r : Regs α) {b b' : Band} (z1 z2 : α) (h : b' ≠ b) :
    (r.setDelays b z1 z2).sec b' = r.sec b' := by simp [Regs.setDelays, h]

@[simp] theorem Regs.zero_fs (N : Numerics α) (r : Regs α) (b : Band) : (r.zero N b).fs = r.fs := by
  simp [Regs.zero]
@[simp] theorem Regs.zero_fsWritten (N : Numerics α) (r : Regs α) (b : Band) :
    (r.zero N b).fsWritten = r.fsWritten := by simp [Regs.zero]
@[simp] theorem Regs.zero_rate (N : Numerics α) (r : Regs α) (b : Band) : (r.zero N b).rate = r.rate := by
  simp [Regs.zero]
@[simp] theorem Regs.zero_self (N : Numerics α) (r : Regs α) (b : Band) :
    (r.zero N b).sec b = { r.sec b with z1 := N.lit 0, z2 := N.lit 0 } := by simp [Regs.zero]
@[simp] theorem Regs.zero_ne (N : Numerics α) (r : Regs α) {b b' : Band} (h : b' ≠ b) :
    (r.zero N b).sec b' = r.sec b' := by simp [Regs.zero, h]

@[simp] theorem Regs.proc_fs (N : Numerics α) (r : Regs α) (b : Band) (x : α) : (r.proc N b x).fs = r.fs := by
  simp [Regs.proc]
@[simp] theorem Regs.proc_fsWritten (N : Numerics α) (r : Regs α) (b : Band) (x : α) :
    (r.proc N b x).fsWritten = r.fsWritten := by simp [Regs.proc]
@[simp] theorem Regs.proc_rate (N : Numerics α) (r : Regs α) (b : Band) (x : α) : (r.proc N b x).rate = r.rate := by
  simp [Regs.proc]
@[simp] theorem Regs.proc_self (N : Numerics α) (r : Regs α) (b : Band) (x : α) :
    (r.proc N b x).sec b = (r.sec b).advance N x := by simp [Regs.proc]
@[simp] theorem Regs.proc_ne (N : Numerics α) (r : Regs α) {b b' : Band} (x : α) (h : b' ≠ b) :
    (r.proc N b x).sec b' = r.sec b' := by simp [Regs.proc, h]

@[simp] theorem Regs.setFs_fs (r : Regs α) (fs : α) : (r.setFs fs).fs = fs := rfl
@[simp] theorem Regs.setFs_fsWritten (r : Regs α) (fs : α) : (r.setFs fs).fsWritten = true := rfl
@[simp] theorem Regs.setFs_rate (r : Regs α) (fs : α) : (r.setFs fs).rate = some fs := rfl
@[simp] theorem Regs.setFs_sec (r : Regs α) (fs : α) (b : Band) : (r.setFs fs).sec b = r.sec b := by
  cases b <;> rfl

@[simp] theorem BiquadSection.advance_coef (N : Numerics α) (c : BiquadSection α) (x : α) :
    (c.advance N x).coef = c.coef := rfl
@[simp] theorem BiquadSection.advance_z1 (N : Numerics α) (c : BiquadSection α) (x : α) :
    (c.advance N x).z1 = recurrence N c x := rfl
@[simp] theorem BiquadSection.advance_z2 (N : Numerics α) (c : BiquadSection α) (x : α) :
    (c.advance N x).z2 = c.z1 := rfl

@[simp] theorem Regs.sec_map {β : Type} (f : α → β) (r : Regs α) (b : Band) :
    (r.map f).sec b = (r.sec b).map f := by cases b <;> rfl
@[simp] theorem Regs.map_fs {β : Type} (f : α → β) (r : Regs α) : (r.map f).fs = f r.fs := rfl
@[simp] theorem Regs.map_fsWritten {β : Type} (f : α → β) (r : Regs α) : (r.map f).fsWritten = r.fsWritten := rfl
@[simp] theorem Regs.powerOn_sec (N : Numerics α) (fs : α) (b : Band) : (Regs.powerOn N fs).sec b = .powerOn N := by
  cases b <;> rfl
@[simp] theorem Regs.powerOn_fs (N : Numerics α) (fs : α) : (Regs.powerOn N fs).fs = fs := rfl
@[simp] theorem Regs.powerOn_rate (N : Numerics α) (fs : α) : (Regs.powerOn N fs).rate = none := rfl

/-! ### Ports -/

@[simp] theorem PortState.finish_queue {ρ : Type} (p : PortState ρ) (res : List NUM) :
    (p.finish res).queue = p.queue := rfl
@[simp] theorem PortState.finish_busy {ρ : Type} (p : PortState ρ) (res : List NUM) :
    (p.finish res).busy = none := rfl
@[simp] theorem PortState.finish_responses {ρ : Type} (p : PortState ρ) (res : List NUM) :
    (p.finish res).responses = p.responses ++ [res] := rfl
@[simp] theorem PortState.goOn_queue {ρ : Type} (p : PortState ρ) (rest : ρ) : (p.goOn rest).queue = p.queue := rfl
@[simp] theorem PortState.goOn_busy {ρ : Type} (p : PortState ρ) (rest : ρ) : (p.goOn rest).busy = some rest := rfl
@[simp] theorem PortState.goOn_responses {ρ : Type} (p : PortState ρ) (rest : ρ) :
    (p.goOn rest).responses = p.responses := rfl

/-! ### The whole state -/

@[simp] theorem State.finishAudio_regs (s : State) (r : Regs NUM) (res : List NUM) :
    (s.finishAudio r res).regs = r := rfl
@[simp] theorem State.finishAudio_audio (s : State) (r : Regs NUM) (res : List NUM) :
    (s.finishAudio r res).audio = s.audio.finish res := rfl
@[simp] theorem State.finishAudio_ctrl (s : State) (r : Regs NUM) (res : List NUM) :
    (s.finishAudio r res).ctrl = s.ctrl := rfl
@[simp] theorem State.finishCtrl_regs (s : State) (r : Regs NUM) (res : List NUM) :
    (s.finishCtrl r res).regs = r := rfl
@[simp] theorem State.finishCtrl_audio (s : State) (r : Regs NUM) (res : List NUM) :
    (s.finishCtrl r res).audio = s.audio := rfl
@[simp] theorem State.finishCtrl_ctrl (s : State) (r : Regs NUM) (res : List NUM) :
    (s.finishCtrl r res).ctrl = s.ctrl.finish res := rfl
@[simp] theorem State.goOnAudio_regs (s : State) (r : Regs NUM) (rest : EqProcRest) :
    (s.goOnAudio r rest).regs = r := rfl
@[simp] theorem State.goOnAudio_audio (s : State) (r : Regs NUM) (rest : EqProcRest) :
    (s.goOnAudio r rest).audio = s.audio.goOn rest := rfl
@[simp] theorem State.goOnAudio_ctrl (s : State) (r : Regs NUM) (rest : EqProcRest) :
    (s.goOnAudio r rest).ctrl = s.ctrl := rfl
@[simp] theorem State.goOnCtrl_regs (s : State) (r : Regs NUM) (rest : EqInitRest) :
    (s.goOnCtrl r rest).regs = r := rfl
@[simp] theorem State.goOnCtrl_audio (s : State) (r : Regs NUM) (rest : EqInitRest) :
    (s.goOnCtrl r rest).audio = s.audio := rfl
@[simp] theorem State.goOnCtrl_ctrl (s : State) (r : Regs NUM) (rest : EqInitRest) :
    (s.goOnCtrl r rest).ctrl = s.ctrl.goOn rest := rfl
@[simp] theorem State.setQueue_audio_audio (s : State) (q : List Command) :
    (s.setQueue .audio q).audio = { s.audio with queue := q } := rfl
@[simp] theorem State.setQueue_audio_ctrl (s : State) (q : List Command) :
    (s.setQueue .audio q).ctrl = s.ctrl := rfl
@[simp] theorem State.setQueue_ctrl_ctrl (s : State) (q : List Command) :
    (s.setQueue .ctrl q).ctrl = { s.ctrl with queue := q } := rfl
@[simp] theorem State.setQueue_ctrl_audio (s : State) (q : List Command) :
    (s.setQueue .ctrl q).audio = s.audio := rfl
@[simp] theorem State.setQueue_regs (s : State) (p : Port) (q : List Command) :
    (s.setQueue p q).regs = s.regs := by cases p <;> rfl

@[simp] theorem State.setQueue_queueOf (s : State) (p : Port) (q : List Command) :
    (s.setQueue p q).queueOf p = q := by cases p <;> rfl

@[simp] theorem State.clearBusy_regs (s : State) (p : Port) : (s.clearBusy p).regs = s.regs := by cases p <;> rfl
@[simp] theorem State.idle_regs (s : State) (p : Port) : (s.idle p).regs = s.regs := by cases p <;> rfl
@[simp] theorem State.idle_audio_ctrl (s : State) : (s.idle .audio).ctrl = s.ctrl := rfl
@[simp] theorem State.idle_ctrl_audio (s : State) : (s.idle .ctrl).audio = s.audio := rfl
@[simp] theorem State.idle_responses (s : State) (p : Port) :
    (s.idle p).audio.responses = s.audio.responses ∧ (s.idle p).ctrl.responses = s.ctrl.responses := by
  cases p <;> exact ⟨rfl, rfl⟩

end Sys2Proof.Machine
end

