-- ==== Sys2Proof/Laws/Arith.lean ====
section
/-! SUPPORT. The named numeric records in ordinary arithmetic, what the laws of zero give, and codings. -/

namespace Sys2Proof.Machine

variable (U : Units)

@[simp] theorem exact_lit (q : Rat) : (exactNum U).lit q = q := rfl
@[simp] theorem exact_add (a b : NUM) : (exactNum U).add a b = a + b := rfl
@[simp] theorem exact_sub (a b : NUM) : (exactNum U).sub a b = a - b := rfl
@[simp] theorem exact_mul (a b : NUM) : (exactNum U).mul a b = a * b := rfl
@[simp] theorem exact_le (a b : NUM) : (exactNum U).le a b = decide (a ≤ b) := rfl

/-- Division is exact where the divisor is not zero. -/
@[simp] theorem exact_div (a : NUM) {b : NUM} (h : b ≠ 0) : (exactNum U).div a b = a / b := by
  simp [exactNum, h]

@[simp] theorem maxN_exact (a b : NUM) : maxN (exactNum U) a b = max a b := by
  simp only [maxN, exact_le, decide_eq_true_eq, max_def]

@[simp] theorem minN_exact (a b : NUM) : minN (exactNum U) a b = min a b := by
  simp only [minN, exact_le, decide_eq_true_eq, min_def]

@[simp] theorem rateBad_exact (fs : NUM) : rateBad (exactNum U) fs = decide (fs ≤ 0) := rfl

/-- A rate is positive in exact arithmetic when it is. -/
@[simp] theorem positiveRate_exact (fs : NUM) : PositiveRate (exactNum U) fs ↔ 0 < fs := by
  simp [PositiveRate]

/-- The recurrence in ordinary arithmetic. -/
theorem recurrence_exact (c : BiquadSection NUM) (x : NUM) :
    recurrence (exactNum U) c x =
      c.coef.ff * x + (c.coef.c1 - c.coef.d1) * c.z1 + (c.coef.c2 - c.coef.d2) * c.z2 := rfl

/-- Exact arithmetic has the laws of zero. -/
theorem zeroLaws_exact : ZeroLaws (exactNum U) :=
  ⟨fun v => by simp, fun v => by simp, by simp, by simp⟩

/-- REAL has the laws of zero. -/
theorem zeroLaws_real : ZeroLaws real :=
  ⟨fun v => by simp [real], fun v => by simp [real], by simp [real], by simp [real]⟩

/-! ### What the laws of zero give -/

variable {α : Type} {N : Numerics α}

/-- A section with zero coefficients answers zero (40_biquad_section.md R86). -/
theorem recurrence_silent (h : ZeroLaws N) {c : BiquadSection α}
    (hc : c.coef = { ff := N.lit 0, c1 := N.lit 0, c2 := N.lit 0, d1 := N.lit 0, d2 := N.lit 0 }) (x : α) :
    recurrence N c x = N.lit 0 := by
  simp only [recurrence, hc, h.zero_sub, h.zero_mul, h.zero_add]

/-- A section at rest answers zero to zero. -/
theorem recurrence_rest (h : ZeroLaws N) {c : BiquadSection α} (h1 : c.z1 = N.lit 0) (h2 : c.z2 = N.lit 0) :
    recurrence N c (N.lit 0) = N.lit 0 := by
  simp only [recurrence, h1, h2, h.mul_zero, h.zero_add]

/-! ### Codings -/

/-- A coded instance computes the code of what the instance computes. -/
theorem recurrence_coded {code : α → NUM} {value : NUM → α} (h : ∀ a, value (code a) = a) (c : BiquadSection α)
    (x : α) : recurrence (codedNum N code value) (c.map code) (code x) = code (recurrence N c x) := by
  simp only [recurrence, codedNum, BiquadSection.map, Coeffs.map, h]

@[simp] theorem real_lit (q : Rat) : real.lit q = (q : ℝ) := rfl
@[simp] theorem real_pi : real.pi = Real.pi := rfl
@[simp] theorem real_add (a b : ℝ) : real.add a b = a + b := rfl
@[simp] theorem real_sub (a b : ℝ) : real.sub a b = a - b := rfl
@[simp] theorem real_mul (a b : ℝ) : real.mul a b = a * b := rfl
@[simp] theorem real_div (a b : ℝ) : real.div a b = a / b := rfl
@[simp] theorem real_sqrt (a : ℝ) : real.sqrt a = Real.sqrt a := rfl
@[simp] theorem real_sin (a : ℝ) : real.sin a = Real.sin a := rfl
@[simp] theorem real_cos (a : ℝ) : real.cos a = Real.cos a := rfl
@[simp] theorem real_pow10 (a : ℝ) : real.pow10 a = (10 : ℝ) ^ a := rfl
@[simp] theorem real_le_iff (a b : ℝ) : real.le a b = true ↔ a ≤ b := by
  simp [real]

@[simp] theorem maxN_real (a b : ℝ) : maxN real a b = max a b := by
  simp only [maxN, real_le_iff, max_def]

@[simp] theorem minN_real (a b : ℝ) : minN real a b = min a b := by
  simp only [minN, real_le_iff, min_def]

@[simp] theorem rateBad_real (fs : ℝ) : rateBad real fs = true ↔ fs ≤ 0 := by simp [rateBad]

/-- The recurrence over REAL in ordinary arithmetic. -/
theorem recurrence_real (c : BiquadSection ℝ) (x : ℝ) :
    recurrence real c x =
      c.coef.ff * x + (c.coef.c1 - c.coef.d1) * c.z1 + (c.coef.c2 - c.coef.d2) * c.z2 := rfl

end Sys2Proof.Machine

namespace Sys2Proof

/-- Every pair of clamp parameters has a positive floor. -/
theorem ClampParams.qFloor_pos (P : ClampParams) : 0 < P.qFloor := by
  unfold ClampParams.qFloor; positivity

/-- Every pair of clamp parameters has a positive Nyquist fraction. -/
theorem ClampParams.nyqFrac_pos (P : ClampParams) : 0 < P.nyqFrac := by
  unfold ClampParams.nyqFrac; positivity

/-- Every pair of clamp parameters has a Nyquist fraction below one. -/
theorem ClampParams.nyqFrac_lt_one (P : ClampParams) : P.nyqFrac < 1 := by
  unfold ClampParams.nyqFrac
  rw [div_lt_one (by positivity)]
  have : (0 : Rat) ≤ P.nyqGap := Nat.cast_nonneg _
  linarith

theorem ClampParams.default_qFloor : ClampParams.default.qFloor = 1 / 100 := by
  norm_num [ClampParams.qFloor, ClampParams.default]

theorem ClampParams.default_nyqFrac : ClampParams.default.nyqFrac = 9 / 10 := by
  norm_num [ClampParams.nyqFrac, ClampParams.default]

/-- No legal floor is left out by the coding of `ClampParams`: every positive rational is one. -/
theorem ClampParams.qFloor_surjective {q : Rat} (h : 0 < q) : ∃ P : ClampParams, P.qFloor = q := by
  have hn : 0 < q.num := Rat.num_pos.mpr h
  refine ⟨{ qNum := q.num.toNat - 1, qDen := q.den - 1, nyqNum := 0, nyqGap := 0 }, ?_⟩
  have h1 : ((q.num.toNat - 1 : ℕ) : ℚ) + 1 = q.num := by
    have : (q.num.toNat - 1 : ℕ) + 1 = q.num.toNat := by omega
    rw [← Nat.cast_succ, Nat.succ_eq_add_one, this]
    exact_mod_cast Int.toNat_of_nonneg hn.le
  have h2 : ((q.den - 1 : ℕ) : ℚ) + 1 = q.den := by
    have := q.den_pos
    rw [← Nat.cast_succ, Nat.succ_eq_add_one, Nat.sub_add_cancel this]
  simp only [ClampParams.qFloor, h1, h2, Rat.num_div_den]

/-- No legal fraction is left out: every rational strictly between 0 and 1 is one. -/
theorem ClampParams.nyqFrac_surjective {q : Rat} (h : 0 < q) (h' : q < 1) :
    ∃ P : ClampParams, P.nyqFrac = q := by
  have hn : 0 < q.num := Rat.num_pos.mpr h
  have hd : q.num < q.den := by
    have h1 : (q.num : ℚ) / q.den < 1 := by rwa [Rat.num_div_den]
    rw [div_lt_one (by exact_mod_cast q.den_pos)] at h1
    exact_mod_cast h1
  obtain ⟨n, hn'⟩ : ∃ n : ℕ, q.num = n + 1 := ⟨q.num.toNat - 1, by omega⟩
  obtain ⟨g, hg⟩ : ∃ g : ℕ, q.den = n + g + 2 := ⟨q.den - n - 2, by omega⟩
  refine ⟨{ qNum := 0, qDen := 0, nyqNum := n, nyqGap := g }, ?_⟩
  rw [← Rat.num_div_den q, hn', hg]
  simp only [ClampParams.nyqFrac]
  push_cast
  ring

end Sys2Proof
end

