-- ==== Sys2Proof/Laws/Ops.lean ====
section
/-! SUPPORT. For each shared operation, what it can do. -/

namespace Sys2Proof.Machine

variable {α : Type}

/-- A designer operation fails exactly for a sample rate that is not positive. -/
theorem design_eq_none {N : Numerics α} {P : ClampParams} {sh : Shape} {fs f q g : α} :
    design N P sh fs f q g = none ↔ rateBad N fs = true := by
  unfold design; split <;> simp_all

/-- What a designer operation returns where the sample rate is positive. -/
theorem design_eq_some {N : Numerics α} {P : ClampParams} {sh : Shape} {fs f q g : α} (h : rateBad N fs = false) :
    design N P sh fs f q g = some (normalise N (rawCoeffs N sh (sharedTerms N P fs f q g))) := by
  simp [design, h]

/-- A designer operation refuses the rates that are not positive, and no other. -/
theorem design_positive {N : Numerics α} {P : ClampParams} {sh : Shape} {fs f q g : α} (h : PositiveRate N fs) :
    ∃ k, design N P sh fs f q g = some k := ⟨_, design_eq_some h⟩

/-- A designer command is refused, or returns its five results and touches no register. -/
theorem answerDesign_cases (B : Build) (sh : Shape) (fs f q g : NUM) (s : State) :
    (rateBad B.num fs = true ∧ answerDesign B sh fs f q g s = .refused .nonpositiveSampleRate) ∨
    (PositiveRate B.num fs ∧ ∃ k, design B.num B.clamps sh fs f q g = some k ∧
      answerDesign B sh fs f q g s = .next (s.finishCtrl s.regs k.toList)) := by
  cases h : rateBad B.num fs with
  | true => left; simp [answerDesign, design, h]
  | false => right; exact ⟨h, _, design_eq_some h, by simp [answerDesign, design, h]⟩

/-- A setter is refused, or replaces one coefficient bank and returns nothing. -/
theorem installBand_cases (B : Build) (b : Band) (pot : NUM) (s : State) :
    (s.regs.rate = none ∧ installBand B b pot s = .refused .setterBeforeInit) ∨
    (∃ fs, s.regs.rate = some fs ∧ rateBad B.num fs = true ∧
      installBand B b pot s = .refused .nonpositiveSampleRate) ∨
    (∃ fs k, s.regs.rate = some fs ∧ PositiveRate B.num fs ∧ designBand B.num B.clamps b fs pot = some k ∧
      installBand B b pot s = .next (s.finishCtrl (s.regs.setCoef b k) [])) := by
  cases hfs : s.regs.rate with
  | none => left; simp [installBand, hfs]
  | some fs =>
    cases h : rateBad B.num fs with
    | true => right; left; exact ⟨fs, rfl, h, by simp [installBand, hfs, designBand, design, h]⟩
    | false =>
      right; right
      exact ⟨fs, _, rfl, h, design_eq_some h, by simp [installBand, hfs, designBand, design, h]⟩

/-- EQ.INIT is refused, or stores its rate and goes on. -/
theorem eqInitOn_cases (B : Build) (fs : NUM) (s : State) :
    (rateBad B.num fs = true ∧ eqInitOn B fs s = .refused .nonpositiveSampleRate) ∨
    (PositiveRate B.num fs ∧ eqInitOn B fs s = .next (s.goOnCtrl (s.regs.setFs fs) .bass)) := by
  cases h : rateBad B.num fs <;> simp [eqInitOn, PositiveRate, h]

/-- `exec` is what runs an instruction on this machine's own build. -/
theorem exec_eq : exec = execOn Config.build := by
  funext i s; cases i <;> rfl

/-- `step` is a step on this machine's own build. -/
theorem step_eq : step = stepOn Config.build := by
  funext s; simp only [step, stepOn, exec_eq]

/-- What holds of every build holds of this machine. -/
theorem onEveryBuild {P : Build → Run → Prop} (h : ∀ B, P B (execOn B)) : OnEveryBuild P :=
  ⟨h, by rw [exec_eq]; exact h _⟩

/-- What holds of every build's step holds of this machine's. -/
theorem onEveryMachine {P : Build → (State → Host.Outcome State Fault Refusal) → Prop} (h : ∀ B, P B (stepOn B)) :
    OnEveryMachine P := ⟨h, by rw [step_eq]; exact h _⟩

/-- Taking a command off a stream refuses it, or runs the operation it names. -/
theorem startCommand_cases (run : Run) (p : Port) (c : Command) (rest : List Command) (s : State) :
    (∃ e, decode p c = .error e ∧ startCommand run p c rest s = .refused (refusalOf e)) ∨
    (∃ i, decode p c = .ok i ∧ startCommand run p c rest s = run i (s.setQueue p rest)) := by
  unfold startCommand; split <;> simp_all

/-- What one step of AUDIO can be. -/
theorem stepAudio_cases (B : Build) (run : Run) (s : State) :
    (∃ rest, s.audio.busy = some rest ∧ stepAudio B run s = .next (resumeEqProc B rest s)) ∨
    (s.audio.busy = none ∧ s.audio.queue = [] ∧ stepAudio B run s = .next s) ∨
    (∃ c rest, s.audio.busy = none ∧ s.audio.queue = c :: rest ∧ stepAudio B run s = startCommand run .audio c rest s) := by
  unfold stepAudio
  split
  · exact .inl ⟨_, ‹_›, rfl⟩
  · split
    · exact .inr (.inl ⟨‹_›, ‹_›, rfl⟩)
    · exact .inr (.inr ⟨_, _, ‹_›, ‹_›, rfl⟩)

/-- What one step of CTRL can be. -/
theorem stepCtrl_cases (B : Build) (run : Run) (s : State) :
    (∃ rest, s.ctrl.busy = some rest ∧ stepCtrl B run s = .next (resumeEqInit B rest s)) ∨
    (s.ctrl.busy = none ∧ s.ctrl.queue = [] ∧ stepCtrl B run s = .next s) ∨
    (∃ c rest, s.ctrl.busy = none ∧ s.ctrl.queue = c :: rest ∧ stepCtrl B run s = startCommand run .ctrl c rest s) := by
  unfold stepCtrl
  split
  · exact .inl ⟨_, ‹_›, rfl⟩
  · split
    · exact .inr (.inl ⟨‹_›, ‹_›, rfl⟩)
    · exact .inr (.inr ⟨_, _, ‹_›, ‹_›, rfl⟩)

/-- A step of the machine waits, or is a step of one port that has work. -/
theorem advance_cases (B : Build) (run : Run) (s : State) :
    (s.mover B = none ∧ advance B run s = .next s) ∨
    (∃ p, s.mover B = some p ∧ advance B run s = stepPort B run p s) := by
  unfold advance
  split
  · exact .inl ⟨‹_›, rfl⟩
  · exact .inr ⟨_, ‹_›, rfl⟩

/-- Which port moves, by which ports have work. -/
theorem State.mover_eq_none (B : Build) {s : State} (ha : s.audio.hasWork = false) (hc : s.ctrl.hasWork = false) :
    s.mover B = none := by simp only [State.mover, ha, hc]
theorem State.mover_eq_audio (B : Build) {s : State} (ha : s.audio.hasWork = true) (hc : s.ctrl.hasWork = false) :
    s.mover B = some .audio := by simp only [State.mover, ha, hc]
theorem State.mover_eq_ctrl (B : Build) {s : State} (ha : s.audio.hasWork = false) (hc : s.ctrl.hasWork = true) :
    s.mover B = some .ctrl := by simp only [State.mover, ha, hc]
theorem State.mover_eq_turn (B : Build) {s : State} (ha : s.audio.hasWork = true) (hc : s.ctrl.hasWork = true) :
    s.mover B = some (B.turn s) := by simp only [State.mover, ha, hc]

/-- The port that moves has work. -/
theorem State.hasWork_of_mover {B : Build} {s : State} {p : Port} (h : s.mover B = some p) : s.hasWork p = true := by
  cases ha : s.audio.hasWork <;> cases hc : s.ctrl.hasWork <;> simp only [State.mover, ha, hc] at h
  · cases h
  · cases h; exact hc
  · cases h; exact ha
  · cases p
    · exact ha
    · exact hc

/-- A step that takes a command off a port starts that command. -/
theorem advance_of_takes {B : Build} {run : Run} {s : State} {p : Port} {c : Command} (h : s.takes B p c) :
    advance B run s = startCommand run p c (s.queueOf p).tail s := by
  obtain ⟨hm, ht⟩ := h
  cases p with
  | audio =>
    obtain ⟨hb, hq⟩ := ht
    obtain ⟨rest, hl⟩ : ∃ rest, s.audio.queue = c :: rest := by cases hl : s.audio.queue <;> simp_all
    simp [advance, hm, stepPort, stepAudio, hb, hl, State.queueOf]
  | ctrl =>
    obtain ⟨hb, hq⟩ := ht
    obtain ⟨rest, hl⟩ : ∃ rest, s.ctrl.queue = c :: rest := by cases hl : s.ctrl.queue <;> simp_all
    simp [advance, hm, stepPort, stepCtrl, hb, hl, State.queueOf]

/-- On every build a presented command is the one the next step takes, and taking it leaves the run as it was but for the
other port, idle now, and for what was left of a composite on its own. -/
theorem presentNext_cases (B : Build) (s : State) (p : Port) (c : Command) :
    (s.presentNext p c).takes B p c ∧ (s.presentNext p c).queueOf p = c :: s.queueOf p ∧
      (s.presentNext p c).setQueue p (s.queueOf p) = (s.idle (otherPort p)).clearBusy p := by
  cases p with
  | audio => exact ⟨⟨State.mover_eq_audio B rfl rfl, rfl, rfl⟩, rfl, rfl⟩
  | ctrl => exact ⟨⟨State.mover_eq_ctrl B rfl rfl, rfl, rfl⟩, rfl, rfl⟩

/-- What one further sub-step of EQ.PROC does. -/
theorem resumeEqProc_cases (B : Build) (rest : EqProcRest) (s : State) :
    (∃ u, rest = .mid u ∧ resumeEqProc B rest s =
      s.goOnAudio (s.regs.proc B.num .mid u) (.treble (s.regs.procOut B.num .mid u))) ∨
    (∃ v, rest = .treble v ∧ resumeEqProc B rest s =
      s.finishAudio (s.regs.proc B.num .treble v) [s.regs.procOut B.num .treble v]) := by
  cases rest with
  | mid u => exact .inl ⟨u, rfl, rfl⟩
  | treble v => exact .inr ⟨v, rfl, rfl⟩

/-- What one further sub-step of EQ.INIT does. -/
theorem resumeEqInit_cases (B : Build) (rest : EqInitRest) (s : State) :
    (∃ b next, (b = .bass ∧ next = .mid ∨ b = .mid ∧ next = .treble) ∧
      resumeEqInit B rest s = s.goOnCtrl (s.regs.zero B.num b) next) ∨
    (rest = .treble ∧ resumeEqInit B rest s = s.finishCtrl (s.regs.zero B.num .treble) []) := by
  cases rest with
  | bass => exact .inl ⟨.bass, .mid, .inl ⟨rfl, rfl⟩, rfl⟩
  | mid => exact .inl ⟨.mid, .treble, .inr ⟨rfl, rfl⟩, rfl⟩
  | treble => exact .inr ⟨rfl, rfl⟩

/-- What any operation can do to the registers and the run when it answers a next state. -/
theorem execOn_cases {B : Build} {i : Instr} {s t : State} (h : execOn B i s = .next t) :
    (∃ b, i = .bqReset b ∧ t = s.finishCtrl (s.regs.zero B.num b) []) ∨
    (∃ b k, loadsCoefs i b = true ∧ t = s.finishCtrl (s.regs.setCoef b k) []) ∨
    (∃ b x, i = .bqProc b x ∧ t = s.finishAudio (s.regs.proc B.num b x) [s.regs.procOut B.num b x]) ∨
    (∃ k : Coeffs NUM, i.port = .ctrl ∧ (∀ b, loadsCoefs i b = false) ∧ t = s.finishCtrl s.regs k.toList) ∨
    (∃ fs, i = .eqInit fs ∧ PositiveRate B.num fs ∧ t = s.goOnCtrl (s.regs.setFs fs) .bass) ∨
    (∃ x, i = .eqProc x ∧
      t = s.goOnAudio (s.regs.proc B.num .bass x) (.mid (s.regs.procOut B.num .bass x))) := by
  have designed : ∀ {sh fs f q g}, answerDesign B sh fs f q g s = .next t →
      ∃ k : Coeffs NUM, t = s.finishCtrl s.regs k.toList := by
    intro sh fs f q g h
    obtain ⟨-, e⟩ | ⟨-, k, -, e⟩ := answerDesign_cases B sh fs f q g s <;> rw [e] at h
    · cases h
    · exact ⟨k, (Host.Outcome.next.inj h).symm⟩
  have installed : ∀ {b pot}, installBand B b pot s = .next t → ∃ k, t = s.finishCtrl (s.regs.setCoef b k) [] := by
    intro b pot h
    obtain ⟨-, e⟩ | ⟨_, -, -, e⟩ | ⟨_, k, -, -, -, e⟩ := installBand_cases B b pot s <;> rw [e] at h
    · cases h
    · cases h
    · exact ⟨k, (Host.Outcome.next.inj h).symm⟩
  cases i with
  | bqReset b => exact .inl ⟨b, rfl, (Host.Outcome.next.inj h).symm⟩
  | bqSetc b ff c1 c2 d1 d2 =>
    exact .inr (.inl ⟨b, _, by simp [loadsCoefs], (Host.Outcome.next.inj h).symm⟩)
  | bqProc b x => exact .inr (.inr (.inl ⟨b, x, rfl, (Host.Outcome.next.inj h).symm⟩))
  | fdLsh fs f q g =>
    obtain ⟨k, e⟩ := designed h
    exact .inr (.inr (.inr (.inl ⟨k, rfl, fun _ => rfl, e⟩)))
  | fdPeak fs f q g =>
    obtain ⟨k, e⟩ := designed h
    exact .inr (.inr (.inr (.inl ⟨k, rfl, fun _ => rfl, e⟩)))
  | fdHsh fs f q g =>
    obtain ⟨k, e⟩ := designed h
    exact .inr (.inr (.inr (.inl ⟨k, rfl, fun _ => rfl, e⟩)))
  | eqInit fs =>
    obtain ⟨-, e⟩ | ⟨hf, e⟩ := eqInitOn_cases B fs s <;> rw [execOn, e] at h
    · cases h
    · exact .inr (.inr (.inr (.inr (.inl ⟨fs, rfl, hf, (Host.Outcome.next.inj h).symm⟩))))
  | eqSetBass pot =>
    obtain ⟨k, e⟩ := installed h
    exact .inr (.inl ⟨.bass, k, rfl, e⟩)
  | eqSetMid pot =>
    obtain ⟨k, e⟩ := installed h
    exact .inr (.inl ⟨.mid, k, rfl, e⟩)
  | eqSetTreb pot =>
    obtain ⟨k, e⟩ := installed h
    exact .inr (.inl ⟨.treble, k, rfl, e⟩)
  | eqProc x => exact .inr (.inr (.inr (.inr (.inr ⟨x, rfl, (Host.Outcome.next.inj h).symm⟩))))

end Sys2Proof.Machine
end

