-- ==== Sys2Proof/Laws/PerInstr.lean ====
section
/-! SUPPORT. One statement for every operation as syntax: its command is one the operation map accepts, on the
operation's own port. -/

namespace Sys2Proof

/-- The map's row of an operation's header has the operation's operand count and port. -/
theorem rowOf_header (o : Opcode) : ∃ r, rowOf o.header = some r ∧ r.arity = o.arity ∧ r.port = o.port := by
  cases o with
  | bqReset b => cases b <;> exact ⟨_, rfl, rfl, rfl⟩
  | bqSetc b => cases b <;> exact ⟨_, rfl, rfl, rfl⟩
  | bqProc b => cases b <;> exact ⟨_, rfl, rfl, rfl⟩
  | _ => exact ⟨_, rfl, rfl, rfl⟩

/-- A command with an operation's header and operand count is one its port accepts. -/
theorem wellFormed_of_arity (o : Opcode) {ops : List NUM} (h : ops.length = o.arity) :
    Command.wellFormed { header := o.header, ops := ops } o.port = true := by
  obtain ⟨r, hr, ha, hp⟩ := rowOf_header o
  simp [Command.wellFormed, Command.headerValid, Command.operandsOk, Command.portOk, hr, ha, hp, h]

end Sys2Proof

namespace Sys2Proof.Laws.EncodesWellFormed

/-- The command of `i` has a valid header, the header's operand count and the header's port
(30_encoding.md R65 to R68). -/
def Statement (i : Instr) : Prop := (encode i).wellFormed i.port = true

theorem bqReset (b : Band) : Statement (.bqReset b) := wellFormed_of_arity (.bqReset b) rfl
theorem bqSetc (b : Band) (ff c1 c2 d1 d2 : NUM) : Statement (.bqSetc b ff c1 c2 d1 d2) :=
  wellFormed_of_arity (.bqSetc b) rfl
theorem bqProc (b : Band) (x : NUM) : Statement (.bqProc b x) := wellFormed_of_arity (.bqProc b) rfl
theorem fdLsh (fs f q g : NUM) : Statement (.fdLsh fs f q g) := wellFormed_of_arity .fdLsh rfl
theorem fdPeak (fs f q g : NUM) : Statement (.fdPeak fs f q g) := wellFormed_of_arity .fdPeak rfl
theorem fdHsh (fs f q g : NUM) : Statement (.fdHsh fs f q g) := wellFormed_of_arity .fdHsh rfl
theorem eqInit (fs : NUM) : Statement (.eqInit fs) := wellFormed_of_arity .eqInit rfl
theorem eqSetBass (pot : NUM) : Statement (.eqSetBass pot) := wellFormed_of_arity .eqSetBass rfl
theorem eqSetMid (pot : NUM) : Statement (.eqSetMid pot) := wellFormed_of_arity .eqSetMid rfl
theorem eqSetTreb (pot : NUM) : Statement (.eqSetTreb pot) := wellFormed_of_arity .eqSetTreb rfl
theorem eqProc (x : NUM) : Statement (.eqProc x) := wellFormed_of_arity .eqProc rfl

end Sys2Proof.Laws.EncodesWellFormed
end

