-- ==== Sys2Proof/Tests/Slice0.lean ====
section
/-! SUPPORT. Tests whose expected results are the spec's own (95_test_vectors.md, named in each comment), and one
witness for the hypotheses of each statement that has any. What computes with numbers runs on the build `exact`, since
the machine's own numeric instance is free. -/

namespace Sys2Proof.Tests

open Sys2Proof.Machine

/-! ### Helpers -/

def nextOf : Host.Outcome State Fault Refusal → Option State
  | .next t => some t
  | _ => none

def refusedOf : Host.Outcome State Fault Refusal → Option Refusal
  | .refused r => some r
  | _ => none

/-- Function units for the tests, none of which computes with them. -/
def units : Units := { pi := 3, sqrt := id, sin := id, cos := id, pow10 := id, divByZero := id }

/-- Exact arithmetic, for short. -/
def E : Numerics NUM := exactNum units

/-- A build with exact arithmetic on which port `p` moves where both have work. -/
def onTurn (p : Port) : Build := { num := E, clamps := .default, turn := fun _ => p }

def exact : Build := onTurn .ctrl

/-- A build whose numbers are whole and saturate at 1000: one that neither rounds nor overflows as the rationals do. -/
def saturating : Build :=
  { exact with num := { E with
      add := fun a b => min (a + b) 1000
      mul := fun a b => ((a * b).floor : Rat) } }

/-- Power-on in exact arithmetic, with the registers of one section replaced. -/
def holding (b : Band) (c : BiquadSection NUM) : State :=
  { State.resetOn E 7 with regs := (Regs.powerOn E 7).setSec b c }

/-- Power-on in exact arithmetic, with FS written. -/
def rated (fs : NUM) : State := { State.resetOn E 7 with regs := (Regs.powerOn E 7).setFs fs }

/-- Power-on in exact arithmetic, with commands waiting on the two ports. -/
def waiting (audio ctrl : List Command) : State :=
  { State.resetOn E 7 with
    audio := { queue := audio, busy := none, responses := [] }
    ctrl := { queue := ctrl, busy := none, responses := [] } }

def cmd (h : Header) (ops : List NUM) : Command := { header := h, ops := ops }

/-- The tuple of vectors V1 and V2. -/
def v1 : Coeffs NUM := { ff := 1 / 2, c1 := 3 / 4, c2 := 1 / 8, d1 := 1 / 4, d2 := 3 / 8 }

/-! ### Well-formedness: an ill-formed term for each check, which the check refuses -/

/-- 95_test_vectors.md H12: SEL = 3. -/
theorem test_wf_refuses_reserved_header : (cmd 0x13 []).headerValid = false := by decide
/-- 95_test_vectors.md H13: RSV = 0b01. -/
theorem test_wf_refuses_rsv : (cmd 0x14 []).wellFormed .ctrl = false := by decide
/-- 95_test_vectors.md H20: one operand short. -/
theorem test_wf_refuses_operand_count : (cmd 0x20 [1, 2, 3, 4]).operandsOk = false := by decide
/-- 95_test_vectors.md H18: BQ.PROC 0 on CTRL. -/
theorem test_wf_refuses_wrong_port : (cmd 0x30 [1]).portOk .ctrl = false := by decide
/-- 95_test_vectors.md H3. -/
theorem test_wf_accepts : (cmd 0x21 [1, 2, 3, 4, 5]).wellFormed .ctrl = true := by decide

/-! ### Decoding: words written out from 30_encoding.md R65 (`OP RSV SEL`) -/

theorem test_decode_bqReset : decode .ctrl (cmd 0b00010010 []) = .ok (.bqReset .treble) := by decide
theorem test_decode_bqSetc :
    decode .ctrl (cmd 0b00100001 [1, 2, 3, 4, 5]) = .ok (.bqSetc .mid 1 2 3 4 5) := by decide
theorem test_decode_bqProc : decode .audio (cmd 0b00110010 [7]) = .ok (.bqProc .treble 7) := by decide
theorem test_decode_fdLsh : decode .ctrl (cmd 0b01000000 [1, 2, 3, 4]) = .ok (.fdLsh 1 2 3 4) := by decide
theorem test_decode_fdPeak : decode .ctrl (cmd 0b01010000 [1, 2, 3, 4]) = .ok (.fdPeak 1 2 3 4) := by decide
theorem test_decode_fdHsh : decode .ctrl (cmd 0b01100000 [1, 2, 3, 4]) = .ok (.fdHsh 1 2 3 4) := by decide
theorem test_decode_eqInit : decode .ctrl (cmd 0b10000000 [9]) = .ok (.eqInit 9) := by decide
theorem test_decode_eqSetBass : decode .ctrl (cmd 0b10010000 [9]) = .ok (.eqSetBass 9) := by decide
theorem test_decode_eqSetMid : decode .ctrl (cmd 0b10010001 [9]) = .ok (.eqSetMid 9) := by decide
theorem test_decode_eqSetTreb : decode .ctrl (cmd 0b10010010 [9]) = .ok (.eqSetTreb 9) := by decide
theorem test_decode_eqProc : decode .audio (cmd 0b11000000 [9]) = .ok (.eqProc 9) := by decide
/-- 95_test_vectors.md H16. -/
theorem test_decode_unassigned : ∀ h ∈ [0x70, 0xA0, 0xB0, 0xD0, 0xE0, 0xF0],
    decode .ctrl (cmd h []) = .error .reservedHeader := by decide
/-- 95_test_vectors.md H11, H14, H15, H17. -/
theorem test_decode_reserved : decode .audio (cmd 0x00 []) = .error .reservedHeader ∧
    decode .ctrl (cmd 0x41 [1, 2, 3, 4]) = .error .reservedHeader ∧
    decode .ctrl (cmd 0x93 [1]) = .error .reservedHeader ∧
    decode .audio (cmd 0xC1 [1]) = .error .reservedHeader := by decide
/-- 95_test_vectors.md H18, H19, H21. -/
theorem test_decode_port_and_count : decode .ctrl (cmd 0x30 [1]) = .error .wrongPort ∧
    decode .audio (cmd 0x20 [1, 2, 3, 4, 5]) = .error .wrongPort ∧
    decode .audio (cmd 0xC0 []) = .error .malformedOperands := by decide

/-! ### The operations, one step each -/

/-- 95_test_vectors.md V6. -/
theorem test_bqReset : (nextOf (execOn exact (.bqReset .bass)
      (holding .bass { coef := ⟨1, 1 / 2, 0, 0, 0⟩, z1 := 3 / 2, z2 := 1 }))).map (·.regs.bass) =
    some { coef := ⟨1, 1 / 2, 0, 0, 0⟩, z1 := 0, z2 := 0 } := by decide +kernel
/-- 95_test_vectors.md V7, on this machine: BQ.SETC computes nothing, so no number is needed. -/
theorem test_bqSetc : (nextOf (exec (.bqSetc .bass 2 0 0 (1 / 4) (1 / 2))
      (holding .bass { coef := ⟨1, 1 / 2, 0, 0, 0⟩, z1 := 3 / 2, z2 := 1 }))).map (·.regs.bass) =
    some { coef := ⟨2, 0, 0, 1 / 4, 1 / 2⟩, z1 := 3 / 2, z2 := 1 } := by decide +kernel
/-- 95_test_vectors.md V2, first sample. -/
theorem test_bqProc : (nextOf (execOn exact (.bqProc .bass 1)
      (holding .bass { coef := v1, z1 := 1, z2 := -2 }))).map
        (fun t => (t.audio.responses, t.regs.bass.z1, t.regs.bass.z2)) =
    some ([[3 / 2]], 3 / 2, 1) := by decide +kernel
/-- 95_test_vectors.md V9: section 1 runs and section 0 does not move. -/
theorem test_bqProc_sections : (nextOf (execOn exact (.bqProc .mid 1)
      { State.resetOn E 7 with regs := { Regs.powerOn E 7 with
          bass := { coef := v1, z1 := 1, z2 := -2 }, mid := { coef := v1, z1 := 0, z2 := 0 } } })).map
        (fun t => (t.audio.responses, t.regs.mid.z1, t.regs.mid.z2, t.regs.bass.z1, t.regs.bass.z2)) =
    some ([[1 / 2]], 1 / 2, 0, 1, -2) := by decide +kernel
/-- 95_test_vectors.md Q6. -/
theorem test_fdLsh_refused : refusedOf (execOn exact (.fdLsh 0 80 (707 / 1000) 15) State.reset) =
    some .nonpositiveSampleRate := by decide +kernel
/-- 95_test_vectors.md Q7. -/
theorem test_fdPeak_refused : refusedOf (execOn exact (.fdPeak (-48000) 800 1 0) State.reset) =
    some .nonpositiveSampleRate := by decide +kernel
/-- 95_test_vectors.md T1: EQ.INIT stores FS, then resets the sections. -/
theorem test_eqInit : (nextOf (execOn exact (.eqInit 48000) State.reset)).map (fun t => (t.regs.rate, t.ctrl.busy)) =
    some (some 48000, some .bass) := by decide +kernel
/-- 95_test_vectors.md T10. -/
theorem test_eqInit_refused : refusedOf (execOn exact (.eqInit 0) State.reset) = some .nonpositiveSampleRate := by
  decide +kernel
/-- 95_test_vectors.md T2, on this machine. -/
theorem test_eqSetBass_before_init : refusedOf (exec (.eqSetBass (1 / 2)) State.reset) = some .setterBeforeInit := by
  decide +kernel
/-- 95_test_vectors.md T3 to T6: each setter leaves the other two sections' coefficients zero. -/
theorem test_setters_own_section :
    (nextOf (execOn exact (.eqSetBass 0) (rated 48000))).map (fun t => (t.regs.mid, t.regs.treble)) =
      some (.powerOn E, .powerOn E) ∧
    (nextOf (execOn exact (.eqSetMid 0) (rated 48000))).map (fun t => (t.regs.bass, t.regs.treble)) =
      some (.powerOn E, .powerOn E) ∧
    (nextOf (execOn exact (.eqSetTreb 1) (rated 48000))).map (fun t => (t.regs.bass, t.regs.mid)) =
      some (.powerOn E, .powerOn E) := by decide +kernel
/-- 95_test_vectors.md T11, first sample: the intermediate `u` is 1/2. -/
theorem test_eqProc_first : (nextOf (execOn exact (.eqProc 1)
    (holding .bass { coef := v1, z1 := 0, z2 := 0 }))).map (·.audio.busy) = some (some (.mid (1 / 2))) := by
  decide +kernel
/-- 95_test_vectors.md T11: the last sub-step of the third sample, `v = 1/4` into section 2. -/
theorem test_eqProc_last : (resumeEqProc exact (.treble (1 / 4))
      (holding .treble { coef := ⟨2, 0, 0, 1 / 4, 1 / 2⟩, z1 := 3 / 4, z2 := 1 })).audio.responses =
    [[-3 / 16]] := by decide +kernel
/-- 00_scope.md R13: the same command on a build whose arithmetic is not exact. By hand: `(600 + 0) + 600` saturates at
1000. -/
theorem test_bqProc_saturates : (nextOf (execOn saturating (.bqProc .bass 300)
      (holding .bass { coef := ⟨2, 0, 1, 0, 0⟩, z1 := 0, z2 := 600 }))).map (·.audio.responses) =
    some [[1000]] := by decide +kernel

/-! ### The clamps and the gain law -/

/-- 95_test_vectors.md G1 to G16. -/
theorem test_gain_law : [0, 1 / 4, 1 / 2, 3 / 4, 1, -3 / 10, 17 / 10, 1 / 10].map (gainDb E · 15) =
      [15, 15 / 2, 0, -15 / 2, -15, 15, -15, 12] ∧
    [0, 1 / 4, 1 / 2, 3 / 4, 1, -3 / 10, 17 / 10, 1 / 10].map (gainDb E · 12) =
      [12, 6, 0, -6, -12, 12, -12, 48 / 5] := by decide +kernel
/-- 95_test_vectors.md Q1, Q2, Q8: the floor raises Q to 1/100 and lets 1/100 pass. -/
theorem test_clamp_q : [0, -3, 1 / 100, 1].map (clampQ E ClampParams.default) = [1 / 100, 1 / 100, 1 / 100, 1] := by
  decide +kernel
/-- 95_test_vectors.md Q3, Q4, Q5. -/
theorem test_clamp_f : clampF E ClampParams.default 48000 30000 = 21600 ∧
    clampF E ClampParams.default 8000 4000 = 3600 ∧
    clampF E ClampParams.default 48000 (-5) = 0 := by decide +kernel

/-! ### The two ports -/

/-- 20_memory.md R49, R50: where both ports have work, each may be the one that moves. -/
theorem test_turns :
    (nextOf (stepOn (onTurn .ctrl) (waiting [cmd 0x30 [1]] [cmd 0x20 [2, 0, 0, 1 / 4, 1 / 2]]))).map
      (fun t => (t.regs.bass.coef.ff, t.audio.queue.length, t.ctrl.queue.length)) = some (2, 1, 0) ∧
    (nextOf (stepOn (onTurn .audio) (waiting [cmd 0x30 [1]] [cmd 0x20 [2, 0, 0, 1 / 4, 1 / 2]]))).map
      (fun t => (t.regs.bass.coef.ff, t.audio.queue.length, t.ctrl.queue.length)) = some (0, 0, 1) := by
  decide +kernel
/-- 95_test_vectors.md H12, through the step of this machine. -/
theorem test_step_refuses : refusedOf (step (waiting [] [cmd 0x13 []])) = some .reservedHeader := by decide +kernel
/-- A placed word is the next instruction whatever the other port was doing. -/
theorem test_withFetchWord : refusedOf (step ((waiting [cmd 0x30 [1]] []).withFetchWord 8 0x90)) =
    some .setterBeforeInit := by decide +kernel

/-! ### Witnesses: each meets all the hypotheses of the statement it names -/

/-- The sample-rate premise, met by the spec's own 48000 on the build `exact` and over the reals, and at its boundary. -/
theorem witness_positive_rate : PositiveRate exact.num 48000 ∧ PositiveRate exact.num (1 / 1000000) ∧
    ¬ PositiveRate exact.num 0 ∧ (0 : ℝ) < 48000 := by
  exact ⟨(positiveRate_exact _ _).2 (by norm_num), (positiveRate_exact _ _).2 (by norm_num),
    fun h => absurd ((positiveRate_exact _ _).1 h) (lt_irrefl _), by norm_num⟩

theorem witness_EncodeAfterDecode : decode .ctrl (cmd 0x11 []) = .ok (.bqReset .mid) := by decide

theorem witness_ReservedHeadersAreRefused : ∀ B,
    (waiting [] [cmd 0x13 []]).takes B .ctrl (cmd 0x13 []) ∧ reservedByRule 0x13 = true ∧
    (waiting [cmd 0xC1 [1]] []).takes B .audio (cmd 0xC1 [1]) ∧ reservedByRule 0xC1 = true :=
  fun _ => ⟨⟨rfl, rfl, rfl⟩, by decide, ⟨rfl, rfl, rfl⟩, by decide⟩

theorem witness_WrongOperandCountIsRefused : ∀ B,
    (waiting [] [cmd 0x20 [1, 2, 3, 4]]).takes B .ctrl (cmd 0x20 [1, 2, 3, 4]) ∧
    (0x20 : Header) ∈ validHeaders ∧ (cmd 0x20 [1, 2, 3, 4]).ops.length ≠ operandCount 0x20 :=
  fun _ => ⟨⟨rfl, rfl, rfl⟩, by decide, by decide⟩

theorem witness_WrongPortIsRefused : ∀ B,
    (waiting [] [cmd 0x30 [1]]).takes B .ctrl (cmd 0x30 [1]) ∧ (0x30 : Header) ∈ validHeaders ∧
    (cmd 0x30 [1]).ops.length = operandCount 0x30 ∧ Port.ctrl ≠ rightPort 0x30 :=
  fun _ => ⟨⟨rfl, rfl, rfl⟩, by decide, by decide, by decide⟩

theorem witness_TableWordRunsNext : decodeTableWord 8 0x21 = some (.bqSetc .mid 0 0 0 0 0) := by decide

/-- BQ.RESET's clause on delay registers that are zero already. -/
theorem witness_BqResetZeroesItsDelays : ((State.resetOn exact.num 7).regs.sec .mid).z1 = exact.num.lit 0 ∧
    ((State.resetOn exact.num 7).regs.sec .mid).z2 = exact.num.lit 0 := ⟨rfl, rfl⟩

theorem witness_SetcAndProcOfOtherSectionsCommute : Band.bass ≠ Band.mid := by decide

theorem witness_TwoPoleFormOfTheRecurrence : 0 < [(1 : ℝ)].length ∧ 2 < [(1 : ℝ), 0, 0].length ∧
    Coeffs.p1 real ⟨1, 1, 0, 0, 0⟩ = Coeffs.p1 real ⟨1, 2, 0, 1, 0⟩ ∧
    Coeffs.p2 real ⟨1, 1, 0, 0, 0⟩ = Coeffs.p2 real ⟨1, 2, 0, 1, 0⟩ := by
  norm_num [Coeffs.p1, Coeffs.p2]

theorem witness_ImpulseResponseDecaysExactlyByTheTest : (Coeffs.mk (1 : ℝ) 0 0 0 0).ff ≠ 0 ∧
    StabilityTest (Coeffs.p1 real ⟨1, 0, 0, 0, 0⟩) (Coeffs.p2 real ⟨1, 0, 0, 0, 0⟩) ∧
    ¬ StabilityTest (Coeffs.p1 real ⟨1, 2, 0, 0, 1⟩) (Coeffs.p2 real ⟨1, 2, 0, 0, 1⟩) := by
  norm_num [Coeffs.p1, Coeffs.p2, StabilityTest]

theorem witness_ZeroCoefficientsGiveSilence : ZeroLaws exact.num ∧ ZeroLaws real ∧
    ((holding .mid { BiquadSection.powerOn E with z1 := 3, z2 := 5 }).regs.sec .mid).coef =
      (BiquadSection.powerOn exact.num).coef := ⟨zeroLaws_exact _, zeroLaws_real, rfl⟩

theorem witness_IdentitySectionPassesItsInput :
    let c := ((holding .mid { coef := ⟨1, -2, 1, -2, 1⟩, z1 := 4, z2 := -4 }).regs.sec .mid).coef
    exact.num = exactNum units ∧ c.ff = 1 ∧ c.c1 = c.d1 ∧ c.c2 = c.d2 := ⟨rfl, rfl, rfl, rfl⟩

theorem witness_FdPeak_design : ∃ k, design E ClampParams.default .peaking 48000 800 1 12 = some k :=
  design_positive witness_positive_rate.1

/-- Both sides of the refusal, at the boundary: 0 is refused, a positive rate is not. -/
theorem witness_DesignerRefusesNonpositiveRate : exact.num.le 0 (exact.num.lit 0) = true ∧
    exact.num.le (1 / 1000000) (exact.num.lit 0) = false := by decide +kernel

theorem witness_DesignerIsPure : (∃ t, execOn exact (.fdHsh 48000 4000 1 3) State.reset = .next t) ∧
    (∃ t, execOn exact (.fdHsh 48000 4000 1 3) (rated 8000) = .next t) ∧
    ∃ t u, execOn exact (setterOf .treble 1) (rated 8000) = .next t ∧
      execOn exact (setterOf .treble 1) t = .next u :=
  ⟨⟨_, rfl⟩, ⟨_, rfl⟩, ⟨_, _, rfl, rfl⟩⟩

/-- At the bounds of each clause: `Q` at the floor, `f` at 0 and at the ceiling, the lowest rate of the last clause. -/
theorem witness_DesignerClampsItsOperands : ClampParams.default.qFloor ≤ 1 / 100 ∧
    (0 : NUM) ≤ 0 ∧ (0 : NUM) ≤ ClampParams.default.nyqFrac * (48000 / 2) ∧
    (21600 : NUM) ≤ ClampParams.default.nyqFrac * (48000 / 2) ∧ (80000 / 9 : NUM) ≤ 80000 / 9 := by
  norm_num [ClampParams.default_qFloor, ClampParams.default_nyqFrac]

theorem witness_LowShelfAtZeroFrequency : (0 : ℝ) < 48000 ∧ (0 : ℝ) ≤ 0 := by norm_num

theorem witness_AccuracyContract : MeetsAccuracyContract real id ClampParams.default ∧ (0 : ℝ) < id 48000 ∧
    id (0 : ℝ) = 0 ∧ ∃ k, design real ClampParams.default .peaking 48000 800 1 0 = some k := by
  have some_of : ∀ {sh} {fs f q g : ℝ}, 0 < fs → ∃ k, design real ClampParams.default sh fs f q g = some k := by
    intro sh fs f q g h
    exact ⟨_, design_eq_some (Bool.eq_false_iff.mpr (by simpa using h))⟩
  refine ⟨?_, by norm_num, rfl, some_of (by norm_num)⟩
  intro sh fs f q g h
  obtain ⟨k, hk⟩ := @some_of sh fs f q g h
  refine ⟨k, k, hk, hk, ?_⟩
  have ok : ∀ r : ℝ, Accurate (id r) r := fun r => by
    simp only [Accurate, id, sub_self, abs_zero, accTol]; positivity
  exact ⟨ok _, ok _, ok _, ok _, ok _⟩

theorem witness_FlatAtZeroDecibels : ∃ r : Regs ℝ, r.rate = some 48000 ∧ (0 : ℝ) < 48000 :=
  ⟨(Regs.powerOn real 7).setFs 48000, rfl, by norm_num⟩

/-- Both clauses of EQ.INIT at their boundary. -/
theorem witness_EqInitStoresTheRateAndZeroes : rateBad exact.num 0 = true ∧
    PositiveRate exact.num (1 / 1000000) := ⟨by decide +kernel, witness_positive_rate.2.1⟩

/-- Each clause of the gain law at its boundary, in both domains. -/
theorem witness_GainLawIsInvertedAndBounded : ((0 : ℝ) < 12 ∧ (0 : ℝ) ≤ 0 ∧ (1 : ℝ) ≤ 1 ∧ (0 : ℝ) < 1 / 2 ∧
    (1 / 2 : ℝ) < 1) ∧ (0 : NUM) < 12 ∧ (0 : NUM) ≤ 0 ∧ (1 : NUM) ≤ 1 ∧ (0 : NUM) < 1 / 2 ∧ (1 / 2 : NUM) < 1 := by
  norm_num

/-- Both clauses of a setter: FS without a value, and with a positive one. -/
theorem witness_setters : State.reset.regs.rate = none ∧ (rated 48000).regs.rate = some 48000 ∧
    PositiveRate exact.num 48000 := ⟨rfl, rfl, witness_positive_rate.1⟩

theorem witness_StepRunsTheDecodedInstruction : ∀ B, (waiting [cmd 0x30 [1]] []).takes B .audio (cmd 0x30 [1]) ∧
    decode .audio (cmd 0x30 [1]) = .ok (.bqProc .bass 1) := fun _ => ⟨⟨rfl, rfl, rfl⟩, by decide⟩

/-- AUDIO inside an EQ.PROC, and CTRL inside an EQ.INIT. -/
def midEqProc : State :=
  { State.resetOn E 7 with audio := { queue := [], busy := some (.mid 0), responses := [] } }

def midEqInit : State :=
  { rated 48000 with ctrl := { queue := [], busy := some .mid, responses := [] } }

theorem witness_StepResumesTheComposite : ∀ B, midEqProc.mover B = some .audio ∧
    midEqProc.audio.busy = some (.mid 0) ∧ midEqInit.mover B = some .ctrl ∧ midEqInit.ctrl.busy = some .mid :=
  fun _ => ⟨rfl, rfl, rfl, rfl⟩

theorem witness_IdleBlockWaits : State.reset.audio.busy = none ∧ State.reset.audio.queue = [] ∧
    State.reset.ctrl.busy = none ∧ State.reset.ctrl.queue = [] := ⟨rfl, rfl, rfl, rfl⟩

/-- Both ports with work, and each alone; an interleaving of two steps, and a run of two steps. -/
theorem witness_EitherPortMayMoveFirst :
    (waiting [cmd 0x30 [1]] [cmd 0x10 []]).audio.hasWork = true ∧
    (waiting [cmd 0x30 [1]] [cmd 0x10 []]).ctrl.hasWork = true ∧
    (waiting [cmd 0x30 [1]] []).ctrl.hasWork = false ∧
    (waiting [] [cmd 0x10 []]).audio.hasWork = false ∧
    (∃ t, Interleaved exact (execOn exact) [.audio, .ctrl] (waiting [cmd 0x30 [1]] [cmd 0x10 []]) t) ∧
    ∃ t, runSteps (stepOn exact) 2 (waiting [cmd 0x30 [1]] [cmd 0x10 []]) = .next t :=
  ⟨rfl, rfl, rfl, rfl, ⟨_, rfl, _, rfl, rfl, _, rfl, rfl⟩, ⟨_, rfl⟩⟩

/-- A step that waits, one that loads a tuple, one that shifts a delay pair, one that zeroes one and one that writes
FS: the hypotheses of the whole-machine statements, one state for each of their clauses. -/
theorem witness_steps :
    (nextOf (step State.reset)).isSome ∧
    (nextOf (step (waiting [] [cmd 0x22 [1, 2, 3, 4, 5]]))).map (·.regs.treble.coef) = some ⟨1, 2, 3, 4, 5⟩ ∧
    (nextOf (stepOn exact { waiting [cmd 0x30 [1]] [] with
      regs := (Regs.powerOn E 7).setSec .bass { coef := v1, z1 := 1, z2 := -2 } })).map
        (fun t => (t.regs.bass.z1, t.regs.bass.z2)) = some (3 / 2, 1) ∧
    (nextOf (stepOn exact { waiting [] [cmd 0x10 []] with
      regs := (Regs.powerOn E 7).setSec .bass { coef := v1, z1 := 1, z2 := -2 } })).map
        (fun t => (t.regs.bass.z1, t.regs.bass.z2)) = some (0, 0) ∧
    (nextOf (stepOn exact (waiting [] [cmd 0x80 [48000]]))).map (·.regs.rate) = some (some 48000) := by decide +kernel

/-- What feeds a section: an operand, and what an EQ.PROC in progress has computed; what zeroes one: a BQ.RESET, and an
EQ.INIT in progress; and a step that does neither to the bass section. -/
theorem witness_DelayPairsStayShiftOrZeroWhole :
    (waiting [cmd 0x30 [1]] []).feeds exact .bass 1 ∧ (waiting [cmd 0xC0 [1]] []).feeds exact .bass 1 ∧
    midEqProc.feeds exact .mid 0 ∧ (waiting [] [cmd 0x10 []]).zeroes exact .bass ∧ midEqInit.zeroes exact .mid ∧
    (∀ x, ¬ midEqInit.feeds exact .bass x) ∧ ¬ midEqInit.zeroes exact .bass := by
  refine ⟨.inl (by decide), .inr (.inl ⟨rfl, by decide⟩), .inr (.inr ⟨rfl, .inl ⟨rfl, rfl⟩⟩), .inl (by decide),
    .inr ⟨rfl, rfl⟩, fun x h => ?_, fun h => ?_⟩
  · rcases h with h | ⟨-, h⟩ | ⟨h, -⟩ <;> cases h
  · rcases h with h | ⟨-, h⟩ <;> cases h

/-- FS unwritten: a step that leaves it so, one that writes it and one that is refused. -/
theorem witness_OnlyEqInitWritesTheRate : (waiting [] []).regs.fsWritten = false ∧
    (nextOf (stepPort exact (execOn exact) .ctrl (waiting [] [cmd 0x10 []]))).map (·.regs.fsWritten) = some false ∧
    (nextOf (stepPort exact (execOn exact) .ctrl (waiting [] [cmd 0x80 [48000]]))).map (·.regs.fsWritten) = some true ∧
    refusedOf (stepPort exact (execOn exact) .ctrl (waiting [] [cmd 0x90 [0]])) = some .setterBeforeInit := by
  decide +kernel

/-- A step that runs a setter. -/
theorem witness_setter_step : ∃ t, stepOn exact { rated 48000 with
    ctrl := { queue := [cmd 0x91 [1 / 2]], busy := none, responses := [] } } = .next t := ⟨_, rfl⟩

/-- Steps of the two ports, each with the other busy and with the other idle. -/
theorem witness_PortsNeverWaitForEachOther :
    (nextOf (stepPort exact (execOn exact) .audio (waiting [cmd 0x30 [1]] []))).isSome ∧
    (nextOf (stepPort exact (execOn exact) .audio (waiting [cmd 0x30 [1]] [cmd 0x10 []]))).isSome ∧
    (nextOf (stepPort exact (execOn exact) .ctrl (waiting [] [cmd 0x10 []]))).isSome ∧
    (nextOf (stepPort exact (execOn exact) .ctrl (waiting [cmd 0x30 [1]] [cmd 0x10 []]))).isSome ∧
    refusedOf (stepPort exact (execOn exact) .audio (waiting [cmd 0x00 []] [])) = some .reservedHeader := by
  decide +kernel

theorem witness_CommandsCompleteInBoundedSteps :
    decode .audio (cmd 0xC0 [1]) = .ok (.eqProc 1) ∧ decode .ctrl (cmd 0x80 [1]) = .ok (.eqInit 1) ∧
    ∀ r, execOn exact (.eqInit 1) State.reset ≠ .refused r := ⟨by decide, by decide, fun r h => by cases h⟩

/-- A refused step for each reason of the closed list, each from a state in which FS is not a bad rate. -/
theorem witness_RefusalsAreTheClosedList : (∀ a c, FsPositive exact.num (waiting a c)) ∧
    refusedOf (step (waiting [] [cmd 0x00 []])) = some .reservedHeader ∧
    refusedOf (step (waiting [cmd 0xC0 []] [])) = some .malformedOperands ∧
    refusedOf (step (waiting [cmd 0x10 []] [])) = some .wrongPort ∧
    refusedOf (stepOn exact (waiting [] [cmd 0x80 [0]])) = some .nonpositiveSampleRate ∧
    refusedOf (step (waiting [] [cmd 0x90 [0]])) = some .setterBeforeInit := by
  refine ⟨fun _ _ fs h => ?_, ?_⟩
  · cases h
  · decide +kernel

theorem witness_EveryStepKeepsTheInvariant : Inv exact.num midEqInit ∧ (nextOf (stepOn exact midEqInit)).isSome := by
  refine ⟨⟨fun fs h => ?_, fun _ => rfl, fun r h => ?_, fun r h => ?_⟩, by decide +kernel⟩
  · have : (48000 : NUM) = fs := Option.some.inj h
    subst this
    exact witness_positive_rate.1
  · cases h
  · cases h

/-- Section 1 is unset, section 0 has run on real samples, and AUDIO is about to leave section 1. -/
def mutedMid : State :=
  { holding .bass { coef := v1, z1 := 1, z2 := 1 } with
    audio := { queue := [], busy := some (.mid 1), responses := [[0]] } }

theorem witness_MuteLastsUntilTheSectionIsLoaded : ZeroLaws exact.num ∧ MutedAt exact.num .mid mutedMid ∧
    (nextOf (stepOn exact mutedMid)).map (·.audio.busy) = some (some (.treble 0)) ∧
    mutedMid.startsNext exact = none := by
  refine ⟨zeroLaws_exact _, ⟨rfl, fun b' h => ?_, fun u _ h => ?_, fun v h => ?_, fun r h => ?_⟩, by decide +kernel,
    rfl⟩
  · cases b' <;> first | exact ⟨rfl, rfl⟩ | exact absurd h (by decide)
  · cases h
  · cases h
  · simpa [mutedMid, exact, onTurn, E] using h

/-- A numeric instance with two values, one of which is no number, and a state that holds codes of it. -/
theorem witness_EveryCountableInstanceCanBeStepped : Countable Bool ∧ Nonempty Bool ∧
    ∀ (N : Numerics Bool) (code : Bool → NUM) (value : NUM → Bool),
      ({ exact with num := codedNum N code value } : Build).num = codedNum N code value ∧
      ({ State.resetOn E 7 with regs := (Regs.powerOn N true).map code } : State).regs = (Regs.powerOn N true).map code :=
  ⟨inferInstance, inferInstance, fun _ _ _ => ⟨rfl, rfl⟩⟩

end Sys2Proof.Tests
end

/-! ### Coded numeric records (00_scope.md R11, R13)

Every formula of the model is written over the fields of a numeric record alone. So what preserves each field preserves
each formula, and a coding whose codes are read back exactly does preserve each field of the record it codes. -/

namespace Sys2Proof.Machine

variable {α β : Type}

/-- Shared terms with every value replaced by its image. -/
def SharedTerms.map (f : α → β) (t : SharedTerms α) : SharedTerms β :=
  { amp := f t.amp, alpha := f t.alpha, cosw0 := f t.cosw0 }

/-- Raw coefficients with every value replaced by its image. -/
def RawCoeffs.map (f : α → β) (r : RawCoeffs α) : RawCoeffs β :=
  { b0 := f r.b0, b1 := f r.b1, b2 := f r.b2, a0 := f r.a0, a1 := f r.a1, a2 := f r.a2 }

/-- Taking images commutes with replacing a section. -/
theorem Regs.map_setSec (f : α → β) (r : Regs α) (b : Band) (c : BiquadSection α) :
    (r.setSec b c).map f = (r.map f).setSec b (c.map f) := by
  cases b <;> rfl

/-- A command of AUDIO that completes is answered with its results. -/
theorem audioAnswered_finishAudio (s : State) (r : Regs NUM) (res : List NUM) :
    AudioAnswered s (s.finishAudio r res) res :=
  ⟨⟨rfl, rfl⟩, rfl, rfl⟩

/-- The values of a countable domain can be coded so that each is read back from its code. -/
theorem exists_coding (α : Type) [Countable α] [Nonempty α] :
    ∃ (code : α → NUM) (value : NUM → α), Function.LeftInverse value code := by
  obtain ⟨index, hindex⟩ := exists_injective_nat α
  have hcode : Function.Injective fun a => (index a : NUM) := Nat.cast_injective.comp hindex
  exact ⟨_, Function.invFun _, Function.leftInverse_invFun hcode⟩

section Coded

variable {N : Numerics α} {code : α → NUM} {value : NUM → α}

/-! #### The fields of the record -/

@[simp] theorem coded_lit (q : Rat) : (codedNum N code value).lit q = code (N.lit q) := rfl
@[simp] theorem coded_pi : (codedNum N code value).pi = code N.pi := rfl

@[simp] theorem powerOn_coded (v : α) :
    Regs.powerOn (codedNum N code value) (code v) = (Regs.powerOn N v).map code := rfl

variable (h : Function.LeftInverse value code)
include h

@[simp] theorem coded_add (a b : α) : (codedNum N code value).add (code a) (code b) = code (N.add a b) := by
  simp only [codedNum, h _]
@[simp] theorem coded_sub (a b : α) : (codedNum N code value).sub (code a) (code b) = code (N.sub a b) := by
  simp only [codedNum, h _]
@[simp] theorem coded_mul (a b : α) : (codedNum N code value).mul (code a) (code b) = code (N.mul a b) := by
  simp only [codedNum, h _]
@[simp] theorem coded_div (a b : α) : (codedNum N code value).div (code a) (code b) = code (N.div a b) := by
  simp only [codedNum, h _]
@[simp] theorem coded_le (a b : α) : (codedNum N code value).le (code a) (code b) = N.le a b := by
  simp only [codedNum, h _]
@[simp] theorem coded_sqrt (a : α) : (codedNum N code value).sqrt (code a) = code (N.sqrt a) := by
  simp only [codedNum, h _]
@[simp] theorem coded_sin (a : α) : (codedNum N code value).sin (code a) = code (N.sin a) := by
  simp only [codedNum, h _]
@[simp] theorem coded_cos (a : α) : (codedNum N code value).cos (code a) = code (N.cos a) := by
  simp only [codedNum, h _]
@[simp] theorem coded_pow10 (a : α) : (codedNum N code value).pow10 (code a) = code (N.pow10 a) := by
  simp only [codedNum, h _]

/-! #### Comparisons and clamps -/

@[simp] theorem maxN_coded (a b : α) : maxN (codedNum N code value) (code a) (code b) = code (maxN N a b) := by
  simp [maxN, h, apply_ite code]
@[simp] theorem minN_coded (a b : α) : minN (codedNum N code value) (code a) (code b) = code (minN N a b) := by
  simp [minN, h, apply_ite code]
@[simp] theorem rateBad_coded (fs : α) : rateBad (codedNum N code value) (code fs) = rateBad N fs := by
  simp [rateBad, h]
@[simp] theorem clampQ_coded (P : ClampParams) (q : α) :
    clampQ (codedNum N code value) P (code q) = code (clampQ N P q) := by
  simp [clampQ, h]
@[simp] theorem clampF_coded (P : ClampParams) (fs f : α) :
    clampF (codedNum N code value) P (code fs) (code f) = code (clampF N P fs f) := by
  simp [clampF, h]

/-! #### The designer -/

@[simp] theorem sharedTerms_coded (P : ClampParams) (fs f q g : α) :
    sharedTerms (codedNum N code value) P (code fs) (code f) (code q) (code g) =
      (sharedTerms N P fs f q g).map code := by
  simp [sharedTerms, SharedTerms.map, amplitude, omega0, bandwidth, h]

theorem rawLowShelf_coded (t : SharedTerms α) :
    rawLowShelf (codedNum N code value) (t.map code) = (rawLowShelf N t).map code := by
  simp [rawLowShelf, RawCoeffs.map, SharedTerms.map, shelfTerm, ampUp, ampDown, h]
theorem rawHighShelf_coded (t : SharedTerms α) :
    rawHighShelf (codedNum N code value) (t.map code) = (rawHighShelf N t).map code := by
  simp [rawHighShelf, RawCoeffs.map, SharedTerms.map, shelfTerm, ampUp, ampDown, h]
theorem rawPeaking_coded (t : SharedTerms α) :
    rawPeaking (codedNum N code value) (t.map code) = (rawPeaking N t).map code := by
  simp [rawPeaking, RawCoeffs.map, SharedTerms.map, h]

@[simp] theorem rawCoeffs_coded (sh : Shape) (t : SharedTerms α) :
    rawCoeffs (codedNum N code value) sh (t.map code) = (rawCoeffs N sh t).map code := by
  cases sh with
  | lowShelf => exact rawLowShelf_coded h t
  | peaking => exact rawPeaking_coded h t
  | highShelf => exact rawHighShelf_coded h t

@[simp] theorem normalise_coded (r : RawCoeffs α) :
    normalise (codedNum N code value) (r.map code) = (normalise N r).map code := by
  simp [normalise, RawCoeffs.map, Coeffs.map, h]

/-- A designer operation on codes gives the codes of its results, and refuses the same rates. -/
theorem design_coded (P : ClampParams) (sh : Shape) (fs f q g : α) :
    design (codedNum N code value) P sh (code fs) (code f) (code q) (code g) =
      (design N P sh fs f q g).map (Coeffs.map code) := by
  cases hfs : rateBad N fs with
  | true =>
    have hfs' : rateBad (codedNum N code value) (code fs) = true := by rwa [rateBad_coded h]
    rw [design_eq_none.mpr hfs, design_eq_none.mpr hfs', Option.map_none]
  | false =>
    have hfs' : rateBad (codedNum N code value) (code fs) = false := by rwa [rateBad_coded h]
    rw [design_eq_some hfs, design_eq_some hfs', Option.map_some, sharedTerms_coded h, rawCoeffs_coded h,
      normalise_coded h]

/-! #### BQ.PROC -/

theorem advance_coded (c : BiquadSection α) (x : α) :
    (c.map code).advance (codedNum N code value) (code x) = (c.advance N x).map code := by
  rw [BiquadSection.advance, recurrence_coded h]
  rfl

theorem procOut_coded (r : Regs α) (b : Band) (x : α) :
    (r.map code).procOut (codedNum N code value) b (code x) = code (r.procOut N b x) := by
  rw [Regs.procOut, Regs.sec_map, recurrence_coded h, Regs.procOut]

theorem proc_coded (r : Regs α) (b : Band) (x : α) :
    (r.map code).proc (codedNum N code value) b (code x) = (r.proc N b x).map code := by
  rw [Regs.proc, Regs.sec_map, advance_coded h, ← Regs.map_setSec, Regs.proc]

/-- BQ.PROC on coded registers leaves the codes of the coded record's registers and answers the code of its output. -/
theorem execOn_bqProc_coded {B : Build} (hB : B.num = codedNum N code value) (b : Band) (x : α) {s : State}
    {r : Regs α} (hr : s.regs = r.map code) :
    execOn B (.bqProc b (code x)) s = .next (s.finishAudio ((r.proc N b x).map code) [code (r.procOut N b x)]) := by
  rw [execOn, bqProcOn, hB, hr, proc_coded h, procOut_coded h]

end Coded

/-- Settles O60: a countable domain has a coding that is read back exactly, and such a coding commutes with the
designer, with power-on and with BQ.PROC, since it commutes with each function of the record. -/
theorem everyCountableInstanceCanBeStepped : Obligations.EveryCountableInstanceCanBeStepped := by
  intro α _ _ N
  obtain ⟨code, value, h⟩ := exists_coding α
  refine ⟨code, value, h, design_coded h, fun v => ?_, fun B b x s r hB hr => ?_⟩
  · rw [← powerOn_coded (value := value)]
    rfl
  · exact ⟨_, execOn_bqProc_coded h hB b x hr, rfl, audioAnswered_finishAudio _ _ _⟩

end Sys2Proof.Machine

/-! ### What one step can do

Every fact about a step is derived from these inversions: which port moves, whether it waits, resumes a composite or
begins an operation, and what that does to the registers (10_state.md R23 to R28, 20_memory.md R50). -/

namespace Sys2Proof.Machine

variable {α : Type} {B : Build} {s t : State} {p : Port}

/-! #### Registers: what each write leaves in a section -/

/-- A write that keeps a part of its section keeps that part of every section. -/
theorem Regs.sec_setSec_congr {β : Type} (f : BiquadSection α → β) (r : Regs α) (b b' : Band) {c : BiquadSection α}
    (h : f c = f (r.sec b)) : f ((r.setSec b c).sec b') = f (r.sec b') := by
  by_cases hb : b' = b
  · rw [hb, Regs.sec_setSec_self, h]
  · rw [Regs.sec_setSec_ne r c hb]

@[simp] theorem Regs.zero_coef (N : Numerics α) (r : Regs α) (b b' : Band) :
    ((r.zero N b).sec b').coef = (r.sec b').coef := Regs.sec_setSec_congr (·.coef) r b b' rfl
@[simp] theorem Regs.proc_coef (N : Numerics α) (r : Regs α) (b b' : Band) (x : α) :
    ((r.proc N b x).sec b').coef = (r.sec b').coef := Regs.sec_setSec_congr (·.coef) r b b' rfl
@[simp] theorem Regs.setCoef_z1 (r : Regs α) (b b' : Band) (k : Coeffs α) :
    ((r.setCoef b k).sec b').z1 = (r.sec b').z1 := Regs.sec_setSec_congr (·.z1) r b b' rfl
@[simp] theorem Regs.setCoef_z2 (r : Regs α) (b b' : Band) (k : Coeffs α) :
    ((r.setCoef b k).sec b').z2 = (r.sec b').z2 := Regs.sec_setSec_congr (·.z2) r b b' rfl

/-- BQ.RESET touches the registers of its section alone (10_state.md R27). -/
theorem onlySection_zero (N : Numerics α) (r : Regs α) (b : Band) : OnlySection b r (r.zero N b) :=
  ⟨fun _ h => Regs.zero_ne N r h, Regs.zero_fs N r b, Regs.zero_fsWritten N r b⟩

/-- A sample touches the registers of its section alone (10_state.md R27). -/
theorem onlySection_proc (N : Numerics α) (r : Regs α) (b : Band) (x : α) : OnlySection b r (r.proc N b x) :=
  ⟨fun _ h => Regs.proc_ne N r x h, Regs.proc_fs N r b x, Regs.proc_fsWritten N r b x⟩

/-! #### What is left of a composite -/

/-- The section the rest of an EQ.PROC feeds next. -/
def EqProcRest.band : EqProcRest → Band
  | .mid _ => .mid
  | .treble _ => .treble

/-- The sample the rest of an EQ.PROC feeds next. -/
def EqProcRest.input : EqProcRest → NUM
  | .mid u => u
  | .treble v => v

/-- The section the rest of an EQ.INIT zeroes next. -/
def EqInitRest.band : EqInitRest → Band
  | .bass => .bass
  | .mid => .mid
  | .treble => .treble

@[simp] theorem resumeEqProc_regs (B : Build) (rest : EqProcRest) (s : State) :
    (resumeEqProc B rest s).regs = s.regs.proc B.num rest.band rest.input := by
  cases rest <;> rfl

@[simp] theorem resumeEqInit_regs (B : Build) (rest : EqInitRest) (s : State) :
    (resumeEqInit B rest s).regs = s.regs.zero B.num rest.band := by
  cases rest <;> rfl

/-! #### What an operation loads -/

/-- The setter of band `b` installs the design of that band. -/
@[simp] theorem execOn_setterOf (B : Build) (b : Band) (pot : NUM) (s : State) :
    execOn B (setterOf b pot) s = installBand B b pot s := by
  cases b <;> rfl

/-- What writes the coefficients of a section is its BQ.SETC and its setter (10_state.md R23). -/
theorem loadsCoefs_iff {i : Instr} {b : Band} : loadsCoefs i b = true ↔
    (∃ ff c1 c2 d1 d2, i = .bqSetc b ff c1 c2 d1 d2) ∨ ∃ pot, i = setterOf b pot := by
  cases i <;> cases b <;> simp [loadsCoefs, setterOf]

/-- The tuple an operation that writes the coefficients of section `b` leaves there: the operands of a BQ.SETC, or the
design of the setter at the rate in FS. -/
def LoadedTuple (B : Build) (s : State) (i : Instr) (b : Band) (k : Coeffs NUM) : Prop :=
  (∃ ff c1 c2 d1 d2, i = .bqSetc b ff c1 c2 d1 d2 ∧ k = { ff := ff, c1 := c1, c2 := c2, d1 := d1, d2 := d2 }) ∨
    ∃ pot fs, i = setterOf b pot ∧ s.regs.rate = some fs ∧ designBand B.num B.clamps b fs pot = some k

/-- An operation that writes the coefficients of section `b` and answers loads that bank whole, and nothing else. -/
theorem execOn_of_loadsCoefs {i : Instr} {b : Band} (hi : loadsCoefs i b = true) (h : execOn B i s = .next t) :
    ∃ k, LoadedTuple B s i b k ∧ t.regs = s.regs.setCoef b k := by
  obtain ⟨ff, c1, c2, d1, d2, rfl⟩ | ⟨pot, rfl⟩ := loadsCoefs_iff.mp hi
  · cases h
    exact ⟨_, .inl ⟨ff, c1, c2, d1, d2, rfl, rfl⟩, rfl⟩
  · rw [execOn_setterOf] at h
    obtain ⟨-, e⟩ | ⟨_, -, -, e⟩ | ⟨fs, k, hfs, -, hk, e⟩ := installBand_cases B b pot s
    · cases e.symm.trans h
    · cases e.symm.trans h
    · cases e.symm.trans h
      exact ⟨k, .inr ⟨pot, fs, rfl, hfs, hk⟩, rfl⟩

/-- An operation leaves the coefficients of a section as they are, or loads them whole. -/
theorem execOn_coef {i : Instr} (h : execOn B i s = .next t) (b : Band) :
    (t.regs.sec b).coef = (s.regs.sec b).coef ∨ LoadedTuple B s i b (t.regs.sec b).coef := by
  cases hl : loadsCoefs i b with
  | true =>
    obtain ⟨k, hk, ht⟩ := execOn_of_loadsCoefs hl h
    exact .inr (by simpa [ht] using hk)
  | false =>
    left
    obtain ⟨_, -, rfl⟩ | ⟨b', k, hl', rfl⟩ | ⟨_, _, -, rfl⟩ | ⟨_, -, -, rfl⟩ | ⟨_, -, -, rfl⟩ | ⟨_, -, rfl⟩ :=
      execOn_cases h
    · simp
    · have hb : b ≠ b' := by rintro rfl; simp [hl] at hl'
      simp [hb]
    · simp
    · simp
    · simp
    · simp

/-- An operation leaves FS as it is, or is an EQ.INIT of a positive rate and leaves that rate there. -/
theorem execOn_fs {i : Instr} (h : execOn B i s = .next t) :
    (t.regs.fs = s.regs.fs ∧ t.regs.fsWritten = s.regs.fsWritten) ∨
    ∃ fs, i = .eqInit fs ∧ PositiveRate B.num fs ∧ t.regs.rate = some fs := by
  obtain ⟨_, -, rfl⟩ | ⟨_, _, -, rfl⟩ | ⟨_, _, -, rfl⟩ | ⟨_, -, -, rfl⟩ | ⟨fs, hi, hfs, rfl⟩ | ⟨_, -, rfl⟩ :=
    execOn_cases h
  · simp
  · simp
  · simp
  · simp
  · exact .inr ⟨fs, hi, hfs, rfl⟩
  · simp

/-! #### The step of one port, and of the machine -/

/-- The operation port `p` begins if it moves; none when it resumes a composite, waits, or meets a command that names no
operation. -/
def State.beginsOn (s : State) : Port → Option Instr
  | .audio =>
    match s.audio.busy, s.audio.queue with
    | none, c :: _ => (decode .audio c).toOption
    | _, _ => none
  | .ctrl =>
    match s.ctrl.busy, s.ctrl.queue with
    | none, c :: _ => (decode .ctrl c).toOption
    | _, _ => none

/-- The operation the next step begins is the one the port that moves begins. -/
theorem State.startsNext_of_mover (hm : s.mover B = some p) : s.startsNext B = s.beginsOn p := by
  cases p <;> rw [State.startsNext, hm] <;> rfl

theorem State.startsNext_of_mover_none (hm : s.mover B = none) : s.startsNext B = none := by
  rw [State.startsNext, hm]

/-- What a step of port `p` can be, when it answers `t`. -/
inductive PortStep (B : Build) (s : State) : Port → State → Prop where
  | waits {p : Port} (hw : s.hasWork p = false) : PortStep B s p s
  | resumesEqProc {rest : EqProcRest} (hb : s.audio.busy = some rest) :
      PortStep B s .audio (resumeEqProc B rest s)
  | resumesEqInit {rest : EqInitRest} (hb : s.ctrl.busy = some rest) :
      PortStep B s .ctrl (resumeEqInit B rest s)
  | begins {p : Port} {i : Instr} {t : State} (hi : s.beginsOn p = some i)
      (ht : execOn B i (s.setQueue p (s.queueOf p).tail) = .next t) : PortStep B s p t

/-- A step of a port that takes a command begins the operation the command names. -/
theorem startCommand_next {run : Run} {c : Command} {rest : List Command}
    (h : startCommand run p c rest s = .next t) :
    ∃ i, decode p c = .ok i ∧ run i (s.setQueue p rest) = .next t := by
  obtain ⟨_, -, e⟩ | ⟨i, hi, e⟩ := startCommand_cases run p c rest s
  · cases e.symm.trans h
  · exact ⟨i, hi, e.symm.trans h⟩

/-- Every step of a port that answers is one of these. -/
theorem stepPort_cases (h : stepPort B (execOn B) p s = .next t) : PortStep B s p t := by
  cases p with
  | audio =>
    obtain ⟨rest, hb, e⟩ | ⟨hb, hq, e⟩ | ⟨c, rest, hb, hq, e⟩ := stepAudio_cases B (execOn B) s
    · cases e.symm.trans h
      exact .resumesEqProc hb
    · cases e.symm.trans h
      exact .waits (by simp [State.hasWork, PortState.hasWork, hb, hq])
    · obtain ⟨i, hi, ht⟩ := startCommand_next (e.symm.trans h)
      exact .begins (i := i) (by simp [State.beginsOn, hb, hq, hi, Except.toOption])
        (by simpa [State.queueOf, hq] using ht)
  | ctrl =>
    obtain ⟨rest, hb, e⟩ | ⟨hb, hq, e⟩ | ⟨c, rest, hb, hq, e⟩ := stepCtrl_cases B (execOn B) s
    · cases e.symm.trans h
      exact .resumesEqInit hb
    · cases e.symm.trans h
      exact .waits (by simp [State.hasWork, PortState.hasWork, hb, hq])
    · obtain ⟨i, hi, ht⟩ := startCommand_next (e.symm.trans h)
      exact .begins (i := i) (by simp [State.beginsOn, hb, hq, hi, Except.toOption])
        (by simpa [State.queueOf, hq] using ht)

/-- A step of the machine waits, or is a step of the port that moves. -/
theorem stepOn_cases (h : stepOn B s = .next t) :
    (s.mover B = none ∧ t = s) ∨ ∃ p, s.mover B = some p ∧ PortStep B s p t := by
  obtain ⟨hm, e⟩ | ⟨p, hm, e⟩ := advance_cases B (execOn B) s
  · cases e.symm.trans h
    exact .inl ⟨hm, rfl⟩
  · exact .inr ⟨p, hm, stepPort_cases (e.symm.trans h)⟩

end Sys2Proof.Machine

/-! ### Coefficients (10_state.md R23, 20_memory.md R47) -/

namespace Sys2Proof.Machine

variable {B : Build} {s t : State} {p : Port}

/-- A step of a port leaves the coefficients of a section as they are, or begins an operation that loads them whole. -/
theorem PortStep.coef (h : PortStep B s p t) (b : Band) :
    (t.regs.sec b).coef = (s.regs.sec b).coef ∨
    ∃ i, s.beginsOn p = some i ∧ LoadedTuple B s i b (t.regs.sec b).coef := by
  cases h with
  | waits => exact .inl rfl
  | resumesEqProc => left; simp
  | resumesEqInit => left; simp
  | begins hi ht => exact (execOn_coef ht b).imp (by simp) fun hl => ⟨_, hi, by simpa [LoadedTuple] using hl⟩

/-- Settles O48: the step waits, resumes a composite, which writes no coefficients, or begins an operation, which leaves
a bank as it is or loads it whole. -/
theorem onlySetcAndSettersWriteCoefficients : Obligations.OnlySetcAndSettersWriteCoefficients := by
  refine onEveryMachine fun B s t h b => ?_
  obtain ⟨-, rfl⟩ | ⟨p, hm, hp⟩ := stepOn_cases h
  · exact .inl rfl
  · refine (hp.coef b).imp id ?_
    rintro ⟨i, hi, ⟨ff, c1, c2, d1, d2, rfl, hk⟩ | ⟨pot, fs, rfl, hfs, hk⟩⟩
    · exact .inl ⟨ff, c1, c2, d1, d2, by rw [State.startsNext_of_mover hm, hi], hk⟩
    · exact .inr ⟨pot, fs, by rw [State.startsNext_of_mover hm, hi], hfs, hk⟩

end Sys2Proof.Machine

/-! ### The invariant (10_state.md R28, 30_encoding.md R64, 42_three_band_equalizer.md R141)

One rule per operation on the run: completing a command, going on with a composite, taking a command off a stream. -/

namespace Sys2Proof.Machine

variable {B : Build} {s t : State} {p : Port}

section Invariant

variable {N : Numerics NUM} {r : Regs NUM}

theorem Inv.setQueue (h : Inv N s) (p : Port) (q : List Command) : Inv N (s.setQueue p q) := by
  cases p <;> exact h

/-- AUDIO may answer one value. -/
theorem Inv.finishAudio (h : Inv N s) (hr : r.rate = s.regs.rate) (hw : r.fsWritten = s.regs.fsWritten) (y : NUM) :
    Inv N (s.finishAudio r [y]) := by
  obtain ⟨hfs, hinit, ha, hc⟩ := h
  refine ⟨fun fs e => hfs fs (hr ▸ e), fun hb => hw.trans (hinit hb), ?_, hc⟩
  simpa [or_imp, forall_and] using ha

/-- CTRL may answer no value, or five. -/
theorem Inv.finishCtrl (h : Inv N s) (hr : r.rate = s.regs.rate) {res : List NUM}
    (hres : res.length = 0 ∨ res.length = 5) : Inv N (s.finishCtrl r res) := by
  obtain ⟨hfs, -, ha, hc⟩ := h
  refine ⟨fun fs e => hfs fs (hr ▸ e), fun hb => absurd rfl hb, ha, ?_⟩
  simpa [or_imp, forall_and] using And.intro hc hres

/-- An EQ.PROC may go on wherever FS is left alone. -/
theorem Inv.goOnAudio (h : Inv N s) (hr : r.rate = s.regs.rate) (hw : r.fsWritten = s.regs.fsWritten)
    (rest : EqProcRest) : Inv N (s.goOnAudio r rest) := by
  obtain ⟨hfs, hinit, hresp⟩ := h
  exact ⟨fun fs e => hfs fs (hr ▸ e), fun hb => hw.trans (hinit hb), hresp⟩

/-- An EQ.INIT may go on where FS holds a positive rate. -/
theorem Inv.goOnCtrl (h : Inv N s) (hr : ∀ fs, r.rate = some fs → PositiveRate N fs) (hw : r.fsWritten = true)
    (rest : EqInitRest) : Inv N (s.goOnCtrl r rest) := by
  obtain ⟨-, -, hresp⟩ := h
  exact ⟨hr, fun _ => hw, hresp⟩

/-- Every operation that answers keeps the invariant. -/
theorem Inv.afterExecOn {i : Instr} (hs : Inv B.num s) (h : execOn B i s = .next t) : Inv B.num t := by
  obtain ⟨_, -, rfl⟩ | ⟨_, _, -, rfl⟩ | ⟨_, _, -, rfl⟩ | ⟨_, -, -, rfl⟩ | ⟨fs, -, hfs, rfl⟩ | ⟨_, -, rfl⟩ :=
    execOn_cases h
  · exact hs.finishCtrl (by simp) (.inl rfl)
  · exact hs.finishCtrl (by simp) (.inl rfl)
  · exact hs.finishAudio (by simp) (by simp) _
  · exact hs.finishCtrl rfl (.inr rfl)
  · exact hs.goOnCtrl (fun _ e => by cases e; exact hfs) rfl .bass
  · exact hs.goOnAudio (by simp) (by simp) _

theorem Inv.afterResumeEqProc (hs : Inv B.num s) (rest : EqProcRest) : Inv B.num (resumeEqProc B rest s) := by
  obtain ⟨_, -, e⟩ | ⟨_, -, e⟩ := resumeEqProc_cases B rest s <;> rw [e]
  · exact hs.goOnAudio (by simp) (by simp) _
  · exact hs.finishAudio (by simp) (by simp) _

theorem Inv.afterResumeEqInit (hs : Inv B.num s) {rest : EqInitRest} (hb : s.ctrl.busy = some rest) :
    Inv B.num (resumeEqInit B rest s) := by
  have ⟨hfs, hinit, _⟩ := hs
  obtain ⟨b, next, -, e⟩ | ⟨-, e⟩ := resumeEqInit_cases B rest s <;> rw [e]
  · exact hs.goOnCtrl (fun fs e => hfs fs (by simpa using e)) (by simpa using hinit (by simp [hb])) next
  · exact hs.finishCtrl (by simp) (.inl rfl)

/-- Every step of a port keeps the invariant. -/
theorem Inv.afterPortStep (hs : Inv B.num s) (h : PortStep B s p t) : Inv B.num t := by
  cases h with
  | waits => exact hs
  | resumesEqProc => exact hs.afterResumeEqProc _
  | resumesEqInit hb => exact hs.afterResumeEqInit hb
  | begins _ ht => exact (hs.setQueue _ _).afterExecOn ht

end Invariant

/-- Settles O57: waiting changes nothing, and every step of a port keeps the invariant. -/
theorem everyStepKeepsTheInvariant : Obligations.EveryStepKeepsTheInvariant := by
  refine onEveryMachine fun B s t hs h => ?_
  obtain ⟨-, rfl⟩ | ⟨p, -, hp⟩ := stepOn_cases h
  · exact hs
  · exact hs.afterPortStep hp

end Sys2Proof.Machine

/-! ### FS (10_state.md R28, R35, 93_implementation_defined.md U4) -/

namespace Sys2Proof.Machine

variable {B : Build} {s t : State} {p : Port}

/-- A step of a port leaves FS as it is, or begins an EQ.INIT of a positive rate and leaves that rate there. -/
theorem PortStep.fs (h : PortStep B s p t) :
    (t.regs.fs = s.regs.fs ∧ t.regs.fsWritten = s.regs.fsWritten) ∨
    ∃ fs, s.beginsOn p = some (.eqInit fs) ∧ PositiveRate B.num fs ∧ t.regs.rate = some fs := by
  cases h with
  | waits => exact .inl ⟨rfl, rfl⟩
  | resumesEqProc => left; simp
  | resumesEqInit => left; simp
  | begins hi ht =>
    refine (execOn_fs ht).imp (by simp) ?_
    rintro ⟨fs, rfl, hfs, hr⟩
    exact ⟨fs, hi, hfs, hr⟩

/-- A step of a port that leaves FS unwritten leaves its content as it is. -/
theorem PortStep.fs_of_unwritten (h : PortStep B s p t) (ht : t.regs.fsWritten = false) : t.regs.fs = s.regs.fs := by
  obtain ⟨hfs, -⟩ | ⟨fs, -, -, hr⟩ := h.fs
  · exact hfs
  · rw [Regs.rate_eq_none.mpr ht] at hr
    cases hr

/-- The registers with another content of FS, written or not. -/
def Regs.withFs {α : Type} (r : Regs α) (v : α) : Regs α := { r with fs := v }

section WithFs

variable {α : Type}

@[simp] theorem Regs.withFs_sec (r : Regs α) (v : α) (b : Band) : (r.withFs v).sec b = r.sec b := by cases b <;> rfl
@[simp] theorem Regs.withFs_fsWritten (r : Regs α) (v : α) : (r.withFs v).fsWritten = r.fsWritten := rfl
@[simp] theorem Regs.withFs_setSec (r : Regs α) (v : α) (b : Band) (c : BiquadSection α) :
    (r.withFs v).setSec b c = (r.setSec b c).withFs v := by cases b <;> rfl
@[simp] theorem Regs.withFs_setCoef (r : Regs α) (v : α) (b : Band) (k : Coeffs α) :
    (r.withFs v).setCoef b k = (r.setCoef b k).withFs v := by simp [Regs.setCoef]
@[simp] theorem Regs.withFs_zero (N : Numerics α) (r : Regs α) (v : α) (b : Band) :
    (r.withFs v).zero N b = (r.zero N b).withFs v := by simp [Regs.zero, Regs.setDelays]
@[simp] theorem Regs.withFs_proc (N : Numerics α) (r : Regs α) (v : α) (b : Band) (x : α) :
    (r.withFs v).proc N b x = (r.proc N b x).withFs v := by simp [Regs.proc]
@[simp] theorem Regs.withFs_procOut (N : Numerics α) (r : Regs α) (v : α) (b : Band) (x : α) :
    (r.withFs v).procOut N b x = r.procOut N b x := by simp [Regs.procOut]
@[simp] theorem Regs.withFs_setFs (r : Regs α) (v fs : α) : (r.withFs v).setFs fs = r.setFs fs := rfl

end WithFs

@[simp] theorem State.withFsContent_regs (s : State) (v : NUM) : (s.withFsContent v).regs = s.regs.withFs v := rfl
@[simp] theorem State.withFsContent_audio (s : State) (v : NUM) : (s.withFsContent v).audio = s.audio := rfl
@[simp] theorem State.withFsContent_ctrl (s : State) (v : NUM) : (s.withFsContent v).ctrl = s.ctrl := rfl

/-- The state with the content `v` of FS, if FS has not been written: what a run that powered up with `v` there has in
place of it. -/
def State.refill (v : NUM) (s : State) : State := if s.regs.fsWritten then s else s.withFsContent v

/-- The outcome with its next state, if it has one, replaced by its image. -/
def mapNext (f : State → State) : Host.Outcome State Fault Refusal → Host.Outcome State Fault Refusal
  | .next t => .next (f t)
  | .fault r => .fault r
  | .refused r => .refused r

theorem State.refill_of_written {v : NUM} (h : s.regs.fsWritten = true) : s.refill v = s := by
  simp [State.refill, h]

theorem State.refill_of_unwritten {v : NUM} (h : s.regs.fsWritten = false) : s.refill v = s.withFsContent v := by
  simp [State.refill, h]

/-! Each operation on the run commutes with refilling an unwritten FS. -/

@[simp] theorem State.refill_finishAudio {v : NUM} {r : Regs NUM} (hr : r.fsWritten = false) (s : State)
    (res : List NUM) : (s.finishAudio r res).refill v = (s.withFsContent v).finishAudio (r.withFs v) res :=
  State.refill_of_unwritten hr

@[simp] theorem State.refill_finishCtrl {v : NUM} {r : Regs NUM} (hr : r.fsWritten = false) (s : State)
    (res : List NUM) : (s.finishCtrl r res).refill v = (s.withFsContent v).finishCtrl (r.withFs v) res :=
  State.refill_of_unwritten hr

@[simp] theorem State.refill_goOnAudio {v : NUM} {r : Regs NUM} (hr : r.fsWritten = false) (s : State)
    (rest : EqProcRest) : (s.goOnAudio r rest).refill v = (s.withFsContent v).goOnAudio (r.withFs v) rest :=
  State.refill_of_unwritten hr

@[simp] theorem State.refill_goOnCtrl {v : NUM} {r : Regs NUM} (hr : r.fsWritten = false) (s : State)
    (rest : EqInitRest) : (s.goOnCtrl r rest).refill v = (s.withFsContent v).goOnCtrl (r.withFs v) rest :=
  State.refill_of_unwritten hr

/-- Writing FS forgets its content. -/
@[simp] theorem State.withFsContent_goOnCtrl_setFs (s : State) (v fs : NUM) (rest : EqInitRest) :
    (s.withFsContent v).goOnCtrl (s.regs.setFs fs) rest = s.goOnCtrl (s.regs.setFs fs) rest := rfl

@[simp] theorem State.withFsContent_setQueue (s : State) (v : NUM) (p : Port) (q : List Command) :
    (s.withFsContent v).setQueue p q = (s.setQueue p q).withFsContent v := by cases p <;> rfl

section Unwritten

variable (B) (v : NUM) (hw : s.regs.fsWritten = false)
include hw

theorem answerDesign_withFsContent (sh : Shape) (fs f q g : NUM) :
    answerDesign B sh fs f q g (s.withFsContent v) = mapNext (State.refill v) (answerDesign B sh fs f q g s) := by
  cases hk : design B.num B.clamps sh fs f q g <;> simp [answerDesign, hk, mapNext, hw]

/-- A setter finds no value in FS, whatever its content is. -/
theorem installBand_withFsContent (b : Band) (pot : NUM) :
    installBand B b pot (s.withFsContent v) = mapNext (State.refill v) (installBand B b pot s) := by
  have hr : s.regs.rate = none := Regs.rate_eq_none.mpr hw
  have hr' : (s.regs.withFs v).rate = none := Regs.rate_eq_none.mpr hw
  simp [installBand, hr, hr', mapNext]

/-- Until FS is written, an operation does the same whatever the content of FS is, but for that content. -/
theorem execOn_withFsContent (i : Instr) :
    execOn B i (s.withFsContent v) = mapNext (State.refill v) (execOn B i s) := by
  cases i with
  | bqReset b => simp [execOn, bqResetOn, mapNext, hw]
  | bqSetc b ff c1 c2 d1 d2 => simp [execOn, bqSetcOn, mapNext, hw]
  | bqProc b x => simp [execOn, bqProcOn, mapNext, hw]
  | fdLsh fs f q g => exact answerDesign_withFsContent B v hw ..
  | fdPeak fs f q g => exact answerDesign_withFsContent B v hw ..
  | fdHsh fs f q g => exact answerDesign_withFsContent B v hw ..
  | eqInit fs =>
    cases hfs : rateBad B.num fs with
    | true => simp [execOn, eqInitOn, hfs, mapNext]
    | false => simpa [execOn, eqInitOn, hfs, mapNext] using (State.refill_of_written rfl).symm
  | eqSetBass pot => exact installBand_withFsContent B v hw ..
  | eqSetMid pot => exact installBand_withFsContent B v hw ..
  | eqSetTreb pot => exact installBand_withFsContent B v hw ..
  | eqProc x => simp [execOn, eqProcOn, mapNext, hw]

theorem resumeEqProc_withFsContent (rest : EqProcRest) :
    resumeEqProc B rest (s.withFsContent v) = (resumeEqProc B rest s).refill v := by
  cases rest <;> simp [resumeEqProc, hw]

theorem resumeEqInit_withFsContent (rest : EqInitRest) :
    resumeEqInit B rest (s.withFsContent v) = (resumeEqInit B rest s).refill v := by
  cases rest <;> simp [resumeEqInit, hw]

theorem startCommand_withFsContent (p : Port) (c : Command) (rest : List Command) :
    startCommand (execOn B) p c rest (s.withFsContent v) =
      mapNext (State.refill v) (startCommand (execOn B) p c rest s) := by
  cases hd : decode p c with
  | error e => simp [startCommand, hd, mapNext]
  | ok i => simp [startCommand, hd, execOn_withFsContent, hw]

/-- Until FS is written, a step of a port does the same whatever the content of FS is, but for that content. -/
theorem stepPort_withFsContent (p : Port) :
    stepPort B (execOn B) p (s.withFsContent v) = mapNext (State.refill v) (stepPort B (execOn B) p s) := by
  have waits : s.withFsContent v = s.refill v := (State.refill_of_unwritten hw).symm
  cases p with
  | audio =>
    simp only [stepPort, stepAudio, State.withFsContent_audio]
    cases s.audio.busy with
    | some rest => exact congrArg _ (resumeEqProc_withFsContent B v hw rest)
    | none =>
      cases s.audio.queue with
      | nil => exact congrArg _ waits
      | cons c rest => exact startCommand_withFsContent B v hw .audio c rest
  | ctrl =>
    simp only [stepPort, stepCtrl, State.withFsContent_ctrl]
    cases s.ctrl.busy with
    | some rest => exact congrArg _ (resumeEqInit_withFsContent B v hw rest)
    | none =>
      cases s.ctrl.queue with
      | nil => exact congrArg _ waits
      | cons c rest => exact startCommand_withFsContent B v hw .ctrl c rest

end Unwritten

/-- A refusal is one whatever becomes of the next state. -/
theorem mapNext_eq_refused {f : State → State} {o : Host.Outcome State Fault Refusal} {r : Refusal} :
    mapNext f o = .refused r ↔ o = .refused r := by
  cases o <;> simp [mapNext]

/-- Settles O50: only an EQ.INIT writes FS, and a step of a port on an unwritten FS commutes with refilling it. -/
theorem onlyEqInitWritesTheRate : Obligations.OnlyEqInitWritesTheRate := by
  refine ⟨onEveryMachine fun B s t h => ?_, onEveryBuild fun B p s v hw => ⟨fun r => ?_, fun t h => ?_⟩⟩
  · obtain ⟨-, rfl⟩ | ⟨p, hm, hp⟩ := stepOn_cases h
    · exact ⟨.inl ⟨rfl, rfl⟩, id⟩
    · obtain ⟨hfs, hw⟩ | ⟨fs, hi, hpos, hr⟩ := hp.fs
      · exact ⟨.inl ⟨hfs, hw⟩, hw.trans⟩
      · exact ⟨.inr ⟨fs, hpos, by rw [State.startsNext_of_mover hm, hi], hr⟩, fun _ => (Regs.rate_eq_some.mp hr).1⟩
  · rw [stepPort_withFsContent B v hw, mapNext_eq_refused]
  · rw [stepPort_withFsContent B v hw, h, mapNext]
    exact ⟨fun ht => by rw [State.refill_of_written ht],
      fun ht => ⟨(stepPort_cases h).fs_of_unwritten ht, by rw [State.refill_of_unwritten ht]⟩⟩

end Sys2Proof.Machine

/-! ### Delay registers (10_state.md R25, 20_memory.md R55) -/

namespace Sys2Proof.Machine

/-- What a step can do to the delay pair of a section. -/
inductive DelayAct where
  /-- Feed section `b` the sample `x`. -/
  | shift (b : Band) (x : NUM)
  /-- Zero both delay registers of section `b`. -/
  | zero (b : Band)

/-- The section an action is on. -/
def DelayAct.band : DelayAct → Band
  | .shift b _ => b
  | .zero b => b

/-- The registers after an action. -/
def Regs.act (N : Numerics NUM) (r : Regs NUM) : DelayAct → Regs NUM
  | .shift b x => r.proc N b x
  | .zero b => r.zero N b

theorem onlySection_act (N : Numerics NUM) (r : Regs NUM) (a : DelayAct) : OnlySection a.band r (r.act N a) := by
  cases a with
  | shift b x => exact onlySection_proc N r b x
  | zero b => exact onlySection_zero N r b

/-- The step is to do the action: it feeds the section that sample, or zeroes the section. -/
def DelayAct.Due (B : Build) (s : State) : DelayAct → Prop
  | .shift b x => s.feeds B b x
  | .zero b => s.zeroes B b

/-- What an operation does to a delay pair as it begins; none when it touches none. -/
def delayActOf : Instr → Option DelayAct
  | .bqReset b => some (.zero b)
  | .bqProc b x => some (.shift b x)
  | .eqProc x => some (.shift .bass x)
  | _ => none

/-- The registers `r'` after a step from `r` that does the action `o`, or, with no action, leaves every delay pair as it
is. -/
def DelaysAfter (N : Numerics NUM) (r r' : Regs NUM) : Option DelayAct → Prop
  | none => ∀ b, (r'.sec b).z1 = (r.sec b).z1 ∧ (r'.sec b).z2 = (r.sec b).z2
  | some a => r' = r.act N a

section Delays

variable {B : Build} {s t : State} {p : Port} {a : DelayAct} {i : Instr}

/-! #### Which action is due -/

theorem delayActOf_eq_shift {b : Band} {x : NUM} :
    delayActOf i = some (.shift b x) ↔ i = .bqProc b x ∨ (b = .bass ∧ i = .eqProc x) := by
  cases i <;> simp [delayActOf, eq_comm]

theorem delayActOf_eq_zero {b : Band} : delayActOf i = some (.zero b) ↔ i = .bqReset b := by
  cases i <;> simp [delayActOf]

theorem not_due_of_mover_none (hm : s.mover B = none) : ¬ a.Due B s := by
  cases a <;> simp [DelayAct.Due, State.feeds, State.zeroes, State.startsNext_of_mover_none hm, hm]

/-- Inside an EQ.PROC the sample it has computed is due, and nothing else. -/
theorem due_of_resumesEqProc {rest : EqProcRest} (hm : s.mover B = some .audio) (hb : s.audio.busy = some rest) :
    a.Due B s ↔ some (.shift rest.band rest.input) = some a := by
  have hi : s.startsNext B = none := by simp [State.startsNext_of_mover hm, State.beginsOn, hb]
  cases a with
  | shift b x => cases rest <;> simp [DelayAct.Due, State.feeds, hi, hm, hb, EqProcRest.band, EqProcRest.input, eq_comm]
  | zero b => simp [DelayAct.Due, State.zeroes, hi, hm]

/-- Inside an EQ.INIT the zeroing of the section it has come to is due, and nothing else. -/
theorem due_of_resumesEqInit {rest : EqInitRest} (hm : s.mover B = some .ctrl) (hb : s.ctrl.busy = some rest) :
    a.Due B s ↔ some (.zero rest.band) = some a := by
  have hi : s.startsNext B = none := by simp [State.startsNext_of_mover hm, State.beginsOn, hb]
  cases a with
  | shift b x => simp [DelayAct.Due, State.feeds, hi, hm]
  | zero b => cases rest <;> cases b <;> simp [DelayAct.Due, State.zeroes, hi, hm, hb, EqInitRest.band]

theorem State.audio_busy_of_beginsOn (hi : s.beginsOn .audio = some i) : s.audio.busy = none := by
  cases hb : s.audio.busy with
  | none => rfl
  | some rest => simp [State.beginsOn, hb] at hi

theorem State.ctrl_busy_of_beginsOn (hi : s.beginsOn .ctrl = some i) : s.ctrl.busy = none := by
  cases hb : s.ctrl.busy with
  | none => rfl
  | some rest => simp [State.beginsOn, hb] at hi

/-- Where an operation begins, what it does to a delay pair is due, and nothing else. -/
theorem due_of_begins (hm : s.mover B = some p) (hi : s.beginsOn p = some i) :
    a.Due B s ↔ delayActOf i = some a := by
  have hs : s.startsNext B = some i := by rw [State.startsNext_of_mover hm, hi]
  cases a with
  | shift b x =>
    have hno : ¬ (s.mover B = some .audio ∧
        ((b = .mid ∧ s.audio.busy = some (.mid x)) ∨ (b = .treble ∧ s.audio.busy = some (.treble x)))) := by
      rintro ⟨hm', hb⟩
      cases hm.symm.trans hm'
      simp [State.audio_busy_of_beginsOn hi] at hb
    simp [DelayAct.Due, State.feeds, hs, hno, delayActOf_eq_shift]
  | zero b =>
    have hno (rest : EqInitRest) : ¬ (s.mover B = some .ctrl ∧ s.ctrl.busy = some rest) := by
      rintro ⟨hm', hb⟩
      cases hm.symm.trans hm'
      simp [State.ctrl_busy_of_beginsOn hi] at hb
    simp [DelayAct.Due, State.zeroes, hs, hno, delayActOf_eq_zero]

/-! #### What a step does to the delay pairs -/

/-- An operation that answers does its own action, or leaves every delay pair as it is. -/
theorem execOn_delays (h : execOn B i s = .next t) : DelaysAfter B.num s.regs t.regs (delayActOf i) := by
  cases ha : delayActOf i with
  | some a =>
    cases a with
    | shift b x =>
      obtain rfl | ⟨rfl, rfl⟩ := delayActOf_eq_shift.mp ha
      · cases h; rfl
      · cases h; rfl
    | zero b =>
      obtain rfl := delayActOf_eq_zero.mp ha
      cases h; rfl
  | none =>
    obtain ⟨_, rfl, -⟩ | ⟨_, _, -, rfl⟩ | ⟨_, _, rfl, -⟩ | ⟨_, -, -, rfl⟩ | ⟨_, -, -, rfl⟩ | ⟨_, rfl, -⟩ :=
      execOn_cases h
    · cases ha
    · simp [DelaysAfter]
    · cases ha
    · simp [DelaysAfter]
    · simp [DelaysAfter]
    · cases ha

/-- A step does the one action that is due; with none due it leaves the delay pairs as they are. -/
theorem stepOn_delays (h : stepOn B s = .next t) :
    ∃ o : Option DelayAct, (∀ a, a.Due B s ↔ o = some a) ∧ DelaysAfter B.num s.regs t.regs o := by
  obtain ⟨hm, rfl⟩ | ⟨p, hm, hp⟩ := stepOn_cases h
  · exact ⟨none, fun a => by simp [not_due_of_mover_none hm], fun b => ⟨rfl, rfl⟩⟩
  · cases hp with
    | waits hw => simp [State.hasWork_of_mover hm] at hw
    | resumesEqProc hb => exact ⟨_, fun a => due_of_resumesEqProc hm hb, resumeEqProc_regs ..⟩
    | resumesEqInit hb => exact ⟨_, fun a => due_of_resumesEqInit hm hb, resumeEqInit_regs ..⟩
    | begins hi ht =>
      refine ⟨_, fun a => due_of_begins hm hi, ?_⟩
      rw [← State.setQueue_regs s]
      exact execOn_delays ht

end Delays

/-- Settles O49: the action that is due is the one the step does, it touches one section, and no second one is due. -/
theorem delayPairsStayShiftOrZeroWhole : Obligations.DelayPairsStayShiftOrZeroWhole := by
  refine onEveryMachine fun B s t h b => ?_
  obtain ⟨o, hdue, ht⟩ := stepOn_delays h
  have does {a : DelayAct} (ha : a.Due B s) : t.regs = s.regs.act B.num a := by
    obtain rfl := (hdue a).mp ha
    exact ht
  refine ⟨fun x hx => ?_, fun hz => ?_, fun hx hz => ?_⟩
  · rw [does (a := .shift b x) hx]
    exact ⟨onlySection_proc .., Regs.proc_self ..⟩
  · rw [does (a := .zero b) hz]
    exact ⟨onlySection_zero .., Regs.zero_self ..⟩
  · cases o with
    | none => exact ht b
    | some a =>
      have ha : a.Due B s := (hdue a).mpr rfl
      have hb : b ≠ a.band := by
        rintro rfl
        cases a with
        | shift b x => exact hx x ha
        | zero b => exact hz ha
      obtain ⟨hsec, -⟩ := onlySection_act B.num s.regs a
      rw [does ha, hsec b hb]
      exact ⟨rfl, rfl⟩

end Sys2Proof.Machine

/-! ### A section over a list of samples (10_state.md R24) -/

namespace Sys2Proof.Machine

section Samples

variable {α : Type} (N : Numerics α)

theorem sectionAfter_append (c : BiquadSection α) (xs ys : List α) :
    sectionAfter N c (xs ++ ys) = sectionAfter N (sectionAfter N c xs) ys := by
  induction xs generalizing c with
  | nil => rfl
  | cons x xs ih => exact ih _

theorem sectionRun_append (c : BiquadSection α) (xs ys : List α) :
    sectionRun N c (xs ++ ys) = sectionRun N c xs ++ sectionRun N (sectionAfter N c xs) ys := by
  induction xs generalizing c with
  | nil => rfl
  | cons x xs ih => exact congrArg (List.cons _) (ih _)

end Samples

/-- Settles O16, by induction on the samples from the last one: each sample moves the last output to Z2 and leaves its
own in Z1. -/
theorem delayRegistersHoldTheLastOutputs : Obligations.DelayRegistersHoldTheLastOutputs := by
  intro α N k xs
  induction xs using List.reverseRecOn with
  | nil => exact ⟨rfl, rfl, rfl⟩
  | append_singleton xs x ih =>
    obtain ⟨hz1, -, hk⟩ := ih
    rw [sectionAfter_append, sectionRun_append, List.reverse_append]
    exact ⟨rfl, hz1, hk⟩

end Sys2Proof.Machine

/-! ### Reset (10_state.md R35, 70_reset_and_hazards.md R180, R184) -/

namespace Sys2Proof.Machine

theorem resetOn_mover (N : Numerics NUM) (v : NUM) (B : Build) : (State.resetOn N v).mover B = none :=
  State.mover_eq_none B rfl rfl

@[simp] theorem resetOn_sec (N : Numerics NUM) (v : NUM) (b : Band) : (State.resetOn N v).regs.sec b = .powerOn N :=
  Regs.powerOn_sec N v b

theorem resetOn_inv (N : Numerics NUM) (v : NUM) : Inv N (State.resetOn N v) :=
  ⟨fun _ h => (nomatch h), fun h => absurd rfl h, by simp [ResponsesShaped, State.resetOn]⟩

theorem resetOn_mutedAt (N : Numerics NUM) (v : NUM) (b : Band) : MutedAt N b (State.resetOn N v) := by
  refine ⟨resetOn_sec N v b, fun b' _ => ?_, fun _ h => ?_, fun _ h => ?_, fun _ h => ?_⟩
  · rw [resetOn_sec]; exact ⟨rfl, rfl⟩
  · cases h
  · cases h
  · cases h

/-- Settles O1: power-on gives each section its power-on registers and neither port any work. -/
theorem resetHoldsThePowerOnValues : Obligations.ResetHoldsThePowerOnValues :=
  ⟨rfl, fun N v => ⟨resetOn_sec N v, rfl, rfl, resetOn_mover N v⟩⟩

/-- Settles O46: with no work on either port no port moves. -/
theorem idleBlockWaits : Obligations.IdleBlockWaits := by
  refine onEveryMachine fun B s ha hqa hc hqc => ?_
  have hm : s.mover B = none :=
    State.mover_eq_none B (by simp [PortState.hasWork, ha, hqa]) (by simp [PortState.hasWork, hc, hqc])
  rw [stepOn, advance, hm]

/-- Settles O58: at power-on every section is at rest, FS holds no value, and nothing is in progress or answered. -/
theorem resetMeetsTheInvariants : Obligations.ResetMeetsTheInvariants :=
  ⟨⟨resetOn_inv _ _, resetOn_mutedAt _ _⟩, fun N v => ⟨resetOn_inv N v, resetOn_mutedAt N v⟩⟩

/-- The three steps of CTRL after the first of an EQ.INIT reset the sections in order (30_encoding.md R70). -/
theorem runPorts_eqInit (B : Build) (run : Run) (s : State) (r : Regs NUM) :
    ∃ u, runPorts B run [.ctrl, .ctrl, .ctrl] (s.goOnCtrl r .bass) = .next u ∧
      u.regs = ((r.zero B.num .bass).zero B.num .mid).zero B.num .treble :=
  ⟨_, rfl, rfl⟩

/-- Three resets of different sections zero the delay pair of every section. -/
theorem zeroAll_sec {α : Type} (N : Numerics α) (r : Regs α) (b : Band) :
    (((r.zero N .bass).zero N .mid).zero N .treble).sec b = { r.sec b with z1 := N.lit 0, z2 := N.lit 0 } := by
  cases b <;> rfl

/-- Settles O2: each column of the table by the rule of its operation; the three further steps of an EQ.INIT reset the
sections one after the other. -/
theorem resetTableOfTheRegisters : Obligations.ResetTableOfTheRegisters := by
  refine ⟨fun N v b => ⟨resetOn_sec N v b, rfl⟩, rfl, onEveryBuild fun B b s => ?_, onEveryBuild fun B fs s hfs => ?_,
    onEveryBuild fun B b pot s hr => ?_, ⟨rfl, rfl, rfl⟩, ⟨rfl, rfl, rfl⟩, ⟨rfl, rfl, rfl⟩, ⟨rfl, rfl, rfl⟩⟩
  · exact ⟨_, rfl, Regs.zero_self .., onlySection_zero ..⟩
  · obtain ⟨hbad, -⟩ | ⟨-, e⟩ := eqInitOn_cases B fs s
    · cases hfs.symm.trans hbad
    · obtain ⟨u, hu, hregs⟩ := runPorts_eqInit B (execOn B) s (s.regs.setFs fs)
      refine ⟨_, u, e, hu, by simp [hregs], fun b => ?_⟩
      rw [hregs, zeroAll_sec, Regs.setFs_sec]
  · rw [execOn_setterOf, installBand, hr]

end Sys2Proof.Machine

/-! ### What an operation does, as a function of the registers (20_memory.md R52, 30_encoding.md R60)

An operation reads the registers and writes them and the run of its own port. So it does the same whatever stands
elsewhere in the state. -/

namespace Sys2Proof

/-- The operation an opcode gives with its operands has that opcode. -/
theorem Opcode.opcode_of_apply {o : Opcode} {ops : List NUM} {i : Instr} (h : o.apply ops = some i) : i.opcode = o := by
  unfold Opcode.apply at h
  split at h <;> cases h <;> rfl

/-- A command that decodes on a port names an operation of that port (30_encoding.md R68). -/
theorem port_of_decode {p : Port} {c : Command} {i : Instr} (h : decode p c = .ok i) : i.port = p := by
  unfold decode at h
  split at h
  · cases h
  · split at h
    · cases h
    · split at h
      next o _ _ hi hp =>
        cases h
        rw [Instr.port, Opcode.opcode_of_apply hi, hp]
      next => cases h

end Sys2Proof

namespace Sys2Proof.Machine

variable {B : Build} {s t : State} {p : Port} {i : Instr}

/-- What the first step of an operation of port `p` does to the registers and to the run of that port. -/
inductive Effect : Port → Type where
  | refuse {p : Port} (why : Refusal) : Effect p
  | finishAudio (r : Regs NUM) (res : List NUM) : Effect .audio
  | goOnAudio (r : Regs NUM) (rest : EqProcRest) : Effect .audio
  | finishCtrl (r : Regs NUM) (res : List NUM) : Effect .ctrl
  | goOnCtrl (r : Regs NUM) (rest : EqInitRest) : Effect .ctrl

/-- The outcome of an effect on a state. -/
def Effect.outcome (s : State) : Effect p → Host.Outcome State Fault Refusal
  | .refuse why => .refused why
  | .finishAudio r res => .next (s.finishAudio r res)
  | .goOnAudio r rest => .next (s.goOnAudio r rest)
  | .finishCtrl r res => .next (s.finishCtrl r res)
  | .goOnCtrl r rest => .next (s.goOnCtrl r rest)

/-- What an operation does depends on the registers alone, and it is an effect on its own port. -/
theorem exists_effect (B : Build) (i : Instr) (r : Regs NUM) :
    ∃ e : Effect i.port, ∀ s : State, s.regs = r → execOn B i s = e.outcome s := by
  have designed (sh : Shape) (fs f q g : NUM) :
      ∃ e : Effect .ctrl, ∀ s : State, s.regs = r → answerDesign B sh fs f q g s = e.outcome s := by
    cases hk : design B.num B.clamps sh fs f q g with
    | none => exact ⟨.refuse .nonpositiveSampleRate, fun s _ => by rw [answerDesign, hk]; rfl⟩
    | some k => exact ⟨.finishCtrl r k.toList, by rintro s rfl; rw [answerDesign, hk]; rfl⟩
  have installed (b : Band) (pot : NUM) :
      ∃ e : Effect .ctrl, ∀ s : State, s.regs = r → installBand B b pot s = e.outcome s := by
    cases hr : r.rate with
    | none => exact ⟨.refuse .setterBeforeInit, by rintro s rfl; rw [installBand, hr]; rfl⟩
    | some fs =>
      cases hk : designBand B.num B.clamps b fs pot with
      | none => exact ⟨.refuse .nonpositiveSampleRate, by rintro s rfl; simp only [installBand, hr, hk]; rfl⟩
      | some k => exact ⟨.finishCtrl (r.setCoef b k) [], by rintro s rfl; simp only [installBand, hr, hk]; rfl⟩
  cases i with
  | bqReset b => exact ⟨.finishCtrl (r.zero B.num b) [], by rintro s rfl; rfl⟩
  | bqSetc b ff c1 c2 d1 d2 => exact ⟨.finishCtrl (r.setCoef b ⟨ff, c1, c2, d1, d2⟩) [], by rintro s rfl; rfl⟩
  | bqProc b x => exact ⟨.finishAudio (r.proc B.num b x) [r.procOut B.num b x], by rintro s rfl; rfl⟩
  | fdLsh fs f q g => exact designed .lowShelf fs f q g
  | fdPeak fs f q g => exact designed .peaking fs f q g
  | fdHsh fs f q g => exact designed .highShelf fs f q g
  | eqInit fs =>
    cases hfs : rateBad B.num fs with
    | true => exact ⟨.refuse .nonpositiveSampleRate, fun s _ => by rw [execOn, eqInitOn, if_pos hfs]; rfl⟩
    | false => exact ⟨.goOnCtrl (r.setFs fs) .bass, by rintro s rfl; simp only [execOn, eqInitOn, hfs]; rfl⟩
  | eqSetBass pot => exact installed .bass pot
  | eqSetMid pot => exact installed .mid pot
  | eqSetTreb pot => exact installed .treble pot
  | eqProc x => exact ⟨.goOnAudio (r.proc B.num .bass x) (.mid (r.procOut B.num .bass x)), by rintro s rfl; rfl⟩

/-- An operation that answers has an effect on its port. -/
theorem effect_of_execOn (hi : i.port = p) (h : execOn B i s = .next t) : ∃ e : Effect p, e.outcome s = .next t := by
  subst hi
  obtain ⟨e, he⟩ := exists_effect B i s.regs
  exact ⟨e, he s rfl ▸ h⟩

end Sys2Proof.Machine

/-! ### Each port by itself (20_memory.md R52, 30_encoding.md R60) -/

namespace Sys2Proof.Machine

variable {B : Build} {s s' : State} {p : Port} {i : Instr}

/-- The state with the other port than `p` as it stands in `s'`. -/
def State.withOtherOf (p : Port) (s' s : State) : State :=
  match p with
  | .audio => { s with ctrl := s'.ctrl }
  | .ctrl => { s with audio := s'.audio }

@[simp] theorem State.withOtherOf_regs (p : Port) (s' s : State) : (State.withOtherOf p s' s).regs = s.regs := by
  cases p <;> rfl

/-- Taking a command off a port and replacing the other port can be exchanged. -/
theorem State.withOtherOf_setQueue (p : Port) (s' s : State) (q : List Command) :
    (State.withOtherOf p s' s).setQueue p q = State.withOtherOf p s' (s.setQueue p q) := by
  cases p <;> rfl

/-- An effect on a port does not see the other one. -/
theorem Effect.outcome_withOtherOf (e : Effect p) (s' s : State) :
    e.outcome (State.withOtherOf p s' s) = mapNext (State.withOtherOf p s') (e.outcome s) := by
  cases p <;> cases e <;> rfl

/-- An operation does not see the port it did not come from. -/
theorem execOn_withOtherOf (hi : i.port = p) (s' s : State) :
    execOn B i (State.withOtherOf p s' s) = mapNext (State.withOtherOf p s') (execOn B i s) := by
  subst hi
  obtain ⟨e, he⟩ := exists_effect B i s.regs
  rw [he s rfl, he _ (State.withOtherOf_regs ..), e.outcome_withOtherOf]

theorem startCommand_withOtherOf (p : Port) (c : Command) (rest : List Command) (s' s : State) :
    startCommand (execOn B) p c rest (State.withOtherOf p s' s) =
      mapNext (State.withOtherOf p s') (startCommand (execOn B) p c rest s) := by
  cases hd : decode p c with
  | error e => simp only [startCommand, hd, mapNext]
  | ok i => simp only [startCommand, hd, State.withOtherOf_setQueue, execOn_withOtherOf (port_of_decode hd)]

/-- A step of a port does the same whatever stands on the other port, and leaves that alone. -/
theorem stepPort_withOtherOf (p : Port) (s' s : State) :
    stepPort B (execOn B) p (State.withOtherOf p s' s) =
      mapNext (State.withOtherOf p s') (stepPort B (execOn B) p s) := by
  cases p with
  | audio =>
    simp only [stepPort, stepAudio, State.withOtherOf]
    cases s.audio.busy with
    | some rest => cases rest <;> rfl
    | none =>
      cases s.audio.queue with
      | nil => rfl
      | cons c rest => exact startCommand_withOtherOf .audio c rest s' s
  | ctrl =>
    simp only [stepPort, stepCtrl, State.withOtherOf]
    cases s.ctrl.busy with
    | some rest => cases rest <;> rfl
    | none =>
      cases s.ctrl.queue with
      | nil => rfl
      | cons c rest => exact startCommand_withOtherOf .ctrl c rest s' s

/-- In a state that differs at most on the other port, a step of port `p` has the same outcome but for that port. -/
theorem stepPort_of_eq_withOtherOf (h : s' = State.withOtherOf p s' s) :
    (∀ t, stepPort B (execOn B) p s = .next t → stepPort B (execOn B) p s' = .next (State.withOtherOf p s' t)) ∧
    ∀ r, stepPort B (execOn B) p s = .refused r → stepPort B (execOn B) p s' = .refused r := by
  have key : stepPort B (execOn B) p s' = mapNext (State.withOtherOf p s') (stepPort B (execOn B) p s) := by
    rw [← stepPort_withOtherOf, ← h]
  exact ⟨fun t ht => by rw [key, ht, mapNext], fun r hr => by rw [key, hr, mapNext]⟩

/-- Settles O52: a state that agrees on the registers and one port differs on the other port alone, which that port's
step does not see. -/
theorem portsNeverWaitForEachOther : Obligations.PortsNeverWaitForEachOther := by
  refine onEveryBuild fun B => ⟨fun s s' hr ha => ?_, fun s s' hr hc => ?_⟩
  · have h : s' = State.withOtherOf .audio s' s := by simp only [State.withOtherOf, ← hr, ← ha]
    obtain ⟨hnext, hrefused⟩ := stepPort_of_eq_withOtherOf (B := B) h
    exact ⟨fun t ht => ⟨_, hnext t ht, rfl, rfl⟩, hrefused⟩
  · have h : s' = State.withOtherOf .ctrl s' s := by simp only [State.withOtherOf, ← hr, ← hc]
    obtain ⟨hnext, hrefused⟩ := stepPort_of_eq_withOtherOf (B := B) h
    exact ⟨fun t ht => ⟨_, hnext t ht, rfl, rfl⟩, hrefused⟩

end Sys2Proof.Machine

/-! ### What a step does to the run of its port (20_memory.md R57, 30_encoding.md R60, R70) -/

namespace Sys2Proof.Machine

/-- The most steps one command of a port takes. -/
def perCommand : Port → Nat
  | .audio => 3
  | .ctrl => 4

/-- How many steps an EQ.PROC in progress still takes. -/
def EqProcRest.stepsLeft : EqProcRest → Nat
  | .mid _ => 2
  | .treble _ => 1

/-- How many steps an EQ.INIT in progress still takes. -/
def EqInitRest.stepsLeft : EqInitRest → Nat
  | .bass => 3
  | .mid => 2
  | .treble => 1

@[simp] theorem EqProcRest.stepsLeft_mid (u : NUM) : (EqProcRest.mid u).stepsLeft = 2 := rfl
@[simp] theorem EqProcRest.stepsLeft_treble (v : NUM) : (EqProcRest.treble v).stepsLeft = 1 := rfl

theorem EqProcRest.stepsLeft_pos (rest : EqProcRest) : 0 < rest.stepsLeft := by cases rest <;> simp
theorem EqInitRest.stepsLeft_pos (rest : EqInitRest) : 0 < rest.stepsLeft := by cases rest <;> decide
theorem EqProcRest.stepsLeft_lt (rest : EqProcRest) : rest.stepsLeft < perCommand .audio := by
  cases rest <;> simp [perCommand]
theorem EqInitRest.stepsLeft_lt (rest : EqInitRest) : rest.stepsLeft < perCommand .ctrl := by cases rest <;> decide

section PortMoves

variable {ρ : Type} {left : ρ → Nat} {most : Nat} {a a' : PortState ρ}

/-- What a step can do to the run of a port that has work, if a composite with `rest` to do takes `left rest` more steps
and no command more than `most`: the command in progress, or else the oldest that waits, is answered or goes on. -/
inductive PortState.Moves (left : ρ → Nat) (most : Nat) (a : PortState ρ) : PortState ρ → Prop where
  | answersWaiting {c : Command} {q : List Command} (res : List NUM) (hb : a.busy = none) (hq : a.queue = c :: q) :
      Moves left most a (PortState.finish { a with queue := q } res)
  | beginsWaiting {c : Command} {q : List Command} {rest : ρ} (hb : a.busy = none) (hq : a.queue = c :: q)
      (hl : left rest < most) : Moves left most a (PortState.goOn { a with queue := q } rest)
  | answers {rest : ρ} (res : List NUM) (hb : a.busy = some rest) : Moves left most a (a.finish res)
  | goesOn {rest rest' : ρ} (hb : a.busy = some rest) (hl : left rest' < left rest) :
      Moves left most a (a.goOn rest')

/-- How many steps a port has left at most. -/
def PortState.stepsLeft (left : ρ → Nat) (most : Nat) (a : PortState ρ) : Nat :=
  a.busy.elim 0 left + most * a.queue.length

/-- A port that moves keeps the number of its commands. -/
theorem PortState.Moves.presented (h : a.Moves left most a') : a'.presented = a.presented := by
  cases h with
  | answersWaiting res hb hq => simp [PortState.presented, hb, hq]; omega
  | beginsWaiting hb hq hl => simp [PortState.presented, hb, hq]; omega
  | answers res hb => simp [PortState.presented, hb]
  | goesOn hb hl => simp [PortState.presented, hb]

/-- A port that moves returns at most one response. -/
theorem PortState.Moves.responses (h : a.Moves left most a') :
    a'.responses = a.responses ∨ ∃ r, a'.responses = a.responses ++ [r] := by
  cases h with
  | answersWaiting res => exact .inr ⟨res, rfl⟩
  | beginsWaiting => exact .inl rfl
  | answers res => exact .inr ⟨res, rfl⟩
  | goesOn => exact .inl rfl

/-- A port that moves has fewer steps left. -/
theorem PortState.Moves.stepsLeft_lt (hleft : ∀ rest, 0 < left rest) (hmost : 0 < most)
    (h : a.Moves left most a') : a'.stepsLeft left most < a.stepsLeft left most := by
  cases h with
  | answersWaiting res hb hq => simp [PortState.stepsLeft, hb, hq, Nat.mul_add, hmost]
  | beginsWaiting hb hq hl => simp [PortState.stepsLeft, hb, hq, Nat.mul_add]; omega
  | @answers rest res hb => simpa [PortState.stepsLeft, hb] using hleft rest
  | goesOn hb hl => simpa [PortState.stepsLeft, hb] using hl

end PortMoves

variable {B : Build} {s t u : State} {p : Port} {i : Instr}

/-- Where a port begins an operation, the oldest command that waits there names it. -/
theorem State.queueOf_of_beginsOn (hi : s.beginsOn p = some i) :
    ∃ c q, s.queueOf p = c :: q ∧ decode p c = .ok i := by
  have named {c : Command} (h : (decode p c).toOption = some i) : decode p c = .ok i := by
    cases hd : decode p c <;> simp_all [Except.toOption]
  cases p with
  | audio =>
    have hb := State.audio_busy_of_beginsOn hi
    cases hq : s.audio.queue with
    | nil => simp [State.beginsOn, hb, hq] at hi
    | cons c q => exact ⟨c, q, hq, named (by simpa only [State.beginsOn, hb, hq] using hi)⟩
  | ctrl =>
    have hb := State.ctrl_busy_of_beginsOn hi
    cases hq : s.ctrl.queue with
    | nil => simp [State.beginsOn, hb, hq] at hi
    | cons c q => exact ⟨c, q, hq, named (by simpa only [State.beginsOn, hb, hq] using hi)⟩

/-- A step of AUDIO with work to do moves that port and leaves CTRL alone. -/
theorem PortStep.audio_moves (h : PortStep B s .audio t) (hw : s.hasWork .audio = true) :
    s.audio.Moves EqProcRest.stepsLeft (perCommand .audio) t.audio ∧ t.ctrl = s.ctrl := by
  cases h with
  | waits hno => cases hno.symm.trans hw
  | @resumesEqProc rest hb =>
    cases rest with
    | mid u => exact ⟨.goesOn hb (by simp), rfl⟩
    | treble v => exact ⟨.answers _ hb, rfl⟩
  | begins hi ht =>
    have hb := State.audio_busy_of_beginsOn hi
    obtain ⟨c, q, hq : s.audio.queue = c :: q, hd⟩ := State.queueOf_of_beginsOn hi
    obtain ⟨e, he⟩ := effect_of_execOn (port_of_decode hd) ht
    rw [State.queueOf, hq, List.tail_cons] at he
    cases e with
    | refuse => cases he
    | finishAudio r res => cases he; exact ⟨.answersWaiting res hb hq, rfl⟩
    | goOnAudio r rest => cases he; exact ⟨.beginsWaiting hb hq rest.stepsLeft_lt, rfl⟩

/-- A step of CTRL with work to do moves that port and leaves AUDIO alone. -/
theorem PortStep.ctrl_moves (h : PortStep B s .ctrl t) (hw : s.hasWork .ctrl = true) :
    s.ctrl.Moves EqInitRest.stepsLeft (perCommand .ctrl) t.ctrl ∧ t.audio = s.audio := by
  cases h with
  | waits hno => cases hno.symm.trans hw
  | @resumesEqInit rest hb =>
    cases rest with
    | bass => exact ⟨.goesOn hb (by decide), rfl⟩
    | mid => exact ⟨.goesOn hb (by decide), rfl⟩
    | treble => exact ⟨.answers _ hb, rfl⟩
  | begins hi ht =>
    have hb := State.ctrl_busy_of_beginsOn hi
    obtain ⟨c, q, hq : s.ctrl.queue = c :: q, hd⟩ := State.queueOf_of_beginsOn hi
    obtain ⟨e, he⟩ := effect_of_execOn (port_of_decode hd) ht
    rw [State.queueOf, hq, List.tail_cons] at he
    cases e with
    | refuse => cases he
    | finishCtrl r res => cases he; exact ⟨.answersWaiting res hb hq, rfl⟩
    | goOnCtrl r rest => cases he; exact ⟨.beginsWaiting hb hq rest.stepsLeft_lt, rfl⟩

/-- Settles O54: the port that moves keeps the number of its commands and answers at most one, and the other port stays
as it is. -/
theorem noCommandIsLost : Obligations.NoCommandIsLost := by
  refine onEveryMachine fun B s t h => ?_
  obtain ⟨-, rfl⟩ | ⟨p, hm, hp⟩ := stepOn_cases h
  · exact ⟨rfl, rfl, .inl rfl, .inl rfl⟩
  · have hw := State.hasWork_of_mover hm
    cases p with
    | audio =>
      obtain ⟨hmoves, hctrl⟩ := hp.audio_moves hw
      rw [hctrl]
      exact ⟨hmoves.presented, rfl, hmoves.responses, .inl rfl⟩
    | ctrl =>
      obtain ⟨hmoves, haudio⟩ := hp.ctrl_moves hw
      rw [haudio]
      exact ⟨rfl, hmoves.presented, .inl rfl, hmoves.responses⟩

end Sys2Proof.Machine

/-! ### Interleavings (20_memory.md R49, R50, 10_state.md R34)

A run whose ports have work never comes back to a state it has left, since each move leaves fewer steps to be made. So a
function of the state can name every choice an interleaving makes. -/

namespace Sys2Proof.Machine

variable {B : Build} {s t u : State} {p : Port}

/-- How many steps the run has left at most. -/
def State.stepsLeft (s : State) : Nat :=
  s.audio.stepsLeft EqProcRest.stepsLeft (perCommand .audio) + s.ctrl.stepsLeft EqInitRest.stepsLeft (perCommand .ctrl)

/-- A step of a port with work to do leaves fewer steps. -/
theorem PortStep.stepsLeft_lt (h : PortStep B s p t) (hw : s.hasWork p = true) : t.stepsLeft < s.stepsLeft := by
  cases p with
  | audio =>
    obtain ⟨hmoves, hctrl⟩ := h.audio_moves hw
    have := hmoves.stepsLeft_lt EqProcRest.stepsLeft_pos (by decide)
    simpa [State.stepsLeft, hctrl] using this
  | ctrl =>
    obtain ⟨hmoves, haudio⟩ := h.ctrl_moves hw
    have := hmoves.stepsLeft_lt EqInitRest.stepsLeft_pos (by decide)
    simpa [State.stepsLeft, haudio] using this

theorem stepOn_stepsLeft_le (h : stepOn B s = .next t) : t.stepsLeft ≤ s.stepsLeft := by
  obtain ⟨-, rfl⟩ | ⟨p, hm, hp⟩ := stepOn_cases h
  · exact le_rfl
  · exact (hp.stepsLeft_lt (State.hasWork_of_mover hm)).le

/-- A port with work moves if it is its turn. -/
theorem State.mover_of_turn (hw : s.hasWork p = true) (hp : B.turn s = p) : s.mover B = some p := by
  cases p with
  | audio =>
    cases hc : s.ctrl.hasWork with
    | false => exact State.mover_eq_audio B hw hc
    | true => rw [State.mover_eq_turn B hw hc, hp]
  | ctrl =>
    cases ha : s.audio.hasWork with
    | false => exact State.mover_eq_ctrl B ha hw
    | true => rw [State.mover_eq_turn B ha hw, hp]

/-- A step of the machine is a step of the port that moves. -/
theorem stepOn_of_mover (hm : s.mover B = some p) : stepOn B s = stepPort B (execOn B) p s := by
  rw [stepOn, advance, hm]

/-- A step of a port does not depend on the interleaving. -/
theorem stepPort_turn (B : Build) (turn : State → Port) :
    stepPort { B with turn := turn } (execOn { B with turn := turn }) = stepPort B (execOn B) := by
  funext p s
  cases p <;> rfl

/-- A step depends on the interleaving through the turn at that state alone. -/
theorem stepOn_congr_turn {turn turn' : State → Port} (h : turn s = turn' s) :
    stepOn { B with turn := turn } s = stepOn { B with turn := turn' } s := by
  simp only [stepOn, advance, State.mover, stepPort_turn, h]

/-- A run of one step more is a step and a run of the rest. -/
theorem runSteps_succ_eq_next {stp : State → Host.Outcome State Fault Refusal} {n : Nat} :
    runSteps stp (n + 1) s = .next t ↔ ∃ u, stp s = .next u ∧ runSteps stp n u = .next t := by
  cases h : stp s <;> simp [runSteps, h]

/-- A run keeps its course under another interleaving that agrees on every state with no more steps left. -/
theorem runSteps_next_congr_turn {turn turn' : State → Port} {m : Nat}
    (hagree : ∀ x : State, x.stepsLeft < m → turn x = turn' x) {n : Nat} (hs : s.stepsLeft < m)
    (h : runSteps (stepOn { B with turn := turn }) n s = .next t) :
    runSteps (stepOn { B with turn := turn' }) n s = .next t := by
  induction n generalizing s with
  | zero => exact h
  | succ n ih =>
    obtain ⟨u, hu, hrest⟩ := runSteps_succ_eq_next.mp h
    exact runSteps_succ_eq_next.mpr
      ⟨u, stepOn_congr_turn (hagree s hs) ▸ hu, ih ((stepOn_stepsLeft_le hu).trans_lt hs) hrest⟩

/-- Every interleaving is the run of a build: its turn at the first state is the first port, and the run does not come
back to that state. -/
theorem exists_turn_of_interleaved {ps : List Port} (h : Interleaved B (execOn B) ps s t) :
    ∃ turn, runSteps (stepOn { B with turn := turn }) ps.length s = .next t := by
  induction ps generalizing s with
  | nil => exact ⟨B.turn, congrArg _ (Eq.symm h)⟩
  | cons p ps ih =>
    obtain ⟨hw, u, hu, hrest⟩ := h
    obtain ⟨turn, hrun⟩ := ih hrest
    refine ⟨Function.update turn s p, runSteps_succ_eq_next.mpr ⟨u, ?_, ?_⟩⟩
    · rw [stepOn_of_mover (State.mover_of_turn hw (Function.update_self ..)), stepPort_turn, hu]
    · have hagree : ∀ x : State, x.stepsLeft < s.stepsLeft → turn x = Function.update turn s p x := by
        intro x hx
        rw [Function.update_of_ne (fun e => by simp [e] at hx)]
      exact runSteps_next_congr_turn hagree ((stepPort_cases hu).stepsLeft_lt hw) hrun

/-- Every run is an interleaving of the steps in which a port moves. -/
theorem interleaved_of_runSteps {n : Nat} (h : runSteps (stepOn B) n s = .next t) :
    ∃ ps, ps.length ≤ n ∧ Interleaved B (execOn B) ps s t := by
  induction n generalizing s with
  | zero => exact ⟨[], le_rfl, (Host.Outcome.next.inj h).symm⟩
  | succ n ih =>
    obtain ⟨u, hu, hrun⟩ := runSteps_succ_eq_next.mp h
    obtain ⟨ps, hlen, hps⟩ := ih hrun
    obtain ⟨-, e⟩ | ⟨p, hm, e⟩ := advance_cases B (execOn B) s
    · cases e.symm.trans hu
      exact ⟨ps, hlen.trans n.le_succ, hps⟩
    · exact ⟨p :: ps, Nat.succ_le_succ hlen, State.hasWork_of_mover hm, u, e.symm.trans hu, hps⟩

/-- Settles O47: the mover's table gives the first three clauses; the two directions between runs and interleavings are
inductions on the list and on the number of steps. -/
theorem eitherPortMayMoveFirst : Obligations.EitherPortMayMoveFirst :=
  ⟨fun B _ ha hc => stepOn_of_mover (State.mover_eq_turn B ha hc),
    fun B _ ha hc => stepOn_of_mover (State.mover_eq_audio B ha hc),
    fun B _ ha hc => stepOn_of_mover (State.mover_eq_ctrl B ha hc),
    fun _ _ _ _ h => exists_turn_of_interleaved h, fun _ _ _ _ h => interleaved_of_runSteps h⟩

end Sys2Proof.Machine

/-! ### Commands run to their end (20_memory.md R50, R52, R57, 40_biquad_section.md R80) -/

namespace Sys2Proof.Machine

variable {B : Build} {run : Run} {s t u : State} {p : Port} {i : Instr} {c : Command} {q : List Command} {k : Nat}

/-- A step that takes a command runs the operation the command names. -/
theorem advance_of_decode (ht : s.takes B p c) (hd : decode p c = .ok i) :
    advance B run s = run i (s.setQueue p (s.queueOf p).tail) := by
  rw [advance_of_takes ht, startCommand, hd]

/-- Settles O44: a step that takes a command runs the operation it names, on this machine's build as on any. -/
theorem stepRunsTheDecodedInstruction : Obligations.StepRunsTheDecodedInstruction :=
  ⟨exec_eq, step_eq, fun _ _ _ _ => advance_of_decode, fun _ _ _ _ _ => advance_of_decode⟩

/-- The responses port `p` has returned. -/
def State.responsesOf (s : State) : Port → List (List NUM)
  | .audio => s.audio.responses
  | .ctrl => s.ctrl.responses

/-- No composite is in progress on port `p`. -/
def State.between (s : State) : Port → Prop
  | .audio => s.audio.busy = none
  | .ctrl => s.ctrl.busy = none

/-- Port `p` by itself, within `k` of its steps, answers one command and then has `q` waiting. -/
def Completes (B : Build) (run : Run) (p : Port) (k : Nat) (s : State) (q : List Command) : Prop :=
  ∃ n t res, n ≤ k ∧ runPorts B run (List.replicate n p) s = .next t ∧ t.between p ∧ t.queueOf p = q ∧
    t.responsesOf p = s.responsesOf p ++ [res]

/-- A step that returns no response comes before the ones that complete the command. -/
theorem Completes.after_step (hu : stepPort B run p s = .next u) (hr : u.responsesOf p = s.responsesOf p)
    (h : Completes B run p k u q) : Completes B run p (k + 1) s q := by
  obtain ⟨n, t, res, hn, hrun, hb, hq, ht⟩ := h
  exact ⟨n + 1, t, res, Nat.succ_le_succ hn, by rw [List.replicate_succ, runPorts, hu]; exact hrun, hb, hq, hr ▸ ht⟩

/-- A command that one step answers is complete. -/
theorem Completes.at_once (res : List NUM) (ht : stepPort B run p s = .next t) (hk : 0 < k) (hb : t.between p)
    (hq : t.queueOf p = q) (hr : t.responsesOf p = s.responsesOf p ++ [res]) : Completes B run p k s q :=
  ⟨1, t, res, hk, by rw [List.replicate_one, runPorts, ht]; rfl, hb, hq, hr⟩

theorem stepPort_of_audio_busy {rest : EqProcRest} (hb : s.audio.busy = some rest) :
    stepPort B run .audio s = .next (resumeEqProc B rest s) := by
  rw [stepPort, stepAudio, hb]

theorem stepPort_of_ctrl_busy {rest : EqInitRest} (hb : s.ctrl.busy = some rest) :
    stepPort B run .ctrl s = .next (resumeEqInit B rest s) := by
  rw [stepPort, stepCtrl, hb]

/-- An EQ.PROC in progress completes in the steps it has left. -/
theorem completes_of_audio_busy {rest : EqProcRest} (hb : s.audio.busy = some rest) :
    Completes B run .audio rest.stepsLeft s s.audio.queue := by
  have last {s : State} {v : NUM} (hb : s.audio.busy = some (.treble v)) :
      Completes B run .audio 1 s s.audio.queue :=
    .at_once _ (stepPort_of_audio_busy hb) Nat.one_pos rfl rfl rfl
  cases rest with
  | mid u => exact .after_step (stepPort_of_audio_busy hb) rfl (last rfl)
  | treble v => exact last hb

/-- An EQ.INIT in progress completes in the steps it has left. -/
theorem completes_of_ctrl_busy {rest : EqInitRest} (hb : s.ctrl.busy = some rest) :
    Completes B run .ctrl rest.stepsLeft s s.ctrl.queue := by
  have last {s : State} (hb : s.ctrl.busy = some .treble) : Completes B run .ctrl 1 s s.ctrl.queue :=
    .at_once _ (stepPort_of_ctrl_busy hb) Nat.one_pos rfl rfl rfl
  have lastTwo {s : State} (hb : s.ctrl.busy = some .mid) : Completes B run .ctrl 2 s s.ctrl.queue :=
    .after_step (stepPort_of_ctrl_busy hb) rfl (last rfl)
  cases rest with
  | bass => exact .after_step (stepPort_of_ctrl_busy hb) rfl (lastTwo rfl)
  | mid => exact lastTwo hb
  | treble => exact last hb

theorem Completes.mono {k' : Nat} (h : Completes B run p k s q) (hk : k ≤ k') : Completes B run p k' s q := by
  obtain ⟨n, t, res, hn, h⟩ := h
  exact ⟨n, t, res, hn.trans hk, h⟩

/-- A command whose operation is not refused completes within the most steps a command of its port takes. -/
theorem completes_of_starts (hi : i.port = p) (hstep : stepPort B run p s = execOn B i (s.setQueue p q))
    (hok : ∀ r, execOn B i s ≠ .refused r) : Completes B run p (perCommand p) s q := by
  subst hi
  obtain ⟨e, he⟩ := exists_effect B i s.regs
  rw [he _ (State.setQueue_regs ..)] at hstep
  simp only [he s rfl] at hok
  generalize i.port = p at e hstep hok ⊢
  cases e with
  | refuse why => exact absurd rfl (hok why)
  | finishAudio r res => exact .at_once res hstep (by decide) rfl rfl rfl
  | finishCtrl r res => exact .at_once res hstep (by decide) rfl rfl rfl
  | goOnAudio r rest =>
    exact (Completes.after_step hstep rfl (completes_of_audio_busy rfl)).mono rest.stepsLeft_lt
  | goOnCtrl r rest =>
    exact (Completes.after_step hstep rfl (completes_of_ctrl_busy rfl)).mono rest.stepsLeft_lt

/-- No operation of AUDIO is refused. -/
theorem execOn_audio_ne_refused (hi : i.port = .audio) (r : Refusal) : execOn B i s ≠ .refused r := by
  cases i with
  | bqProc b x => exact fun h => nomatch h
  | eqProc x => exact fun h => nomatch h
  | _ => cases hi

/-- Settles O53: the step that takes the command runs it, and what it leaves in progress completes in the steps it has
left. -/
theorem commandsCompleteInBoundedSteps : Obligations.CommandsCompleteInBoundedSteps := by
  refine onEveryBuild fun B => ⟨fun s c rest i hb hq hd => ?_, fun s c rest i hb hq hd hok => ?_⟩
  · have hi := port_of_decode hd
    have hstep : stepPort B (execOn B) .audio s = execOn B i (s.setQueue .audio rest) := by
      simp only [stepPort, stepAudio, hb, hq, startCommand, hd]
    exact completes_of_starts hi hstep (execOn_audio_ne_refused hi)
  · have hstep : stepPort B (execOn B) .ctrl s = execOn B i (s.setQueue .ctrl rest) := by
      simp only [stepPort, stepCtrl, hb, hq, startCommand, hd]
    exact completes_of_starts (port_of_decode hd) hstep hok

end Sys2Proof.Machine

/-! ### Coefficient writes beside samples (20_memory.md R48, R56, 10_state.md R27) -/

namespace Sys2Proof.Machine

section Tuples

variable {α : Type} (N : Numerics α) (r : Regs α)

/-- A sample of a section whose tuple has just been written computes with the new tuple on the old delay registers. -/
@[simp] theorem Regs.procOut_setCoef_self (b : Band) (k : Coeffs α) (x : α) :
    (r.setCoef b k).procOut N b x = recurrence N { r.sec b with coef := k } x := by
  rw [Regs.procOut, Regs.setCoef_self]

/-- A sample does not see the tuple of another section. -/
@[simp] theorem Regs.procOut_setCoef_ne {b b' : Band} (h : b' ≠ b) (k : Coeffs α) (x : α) :
    (r.setCoef b k).procOut N b' x = r.procOut N b' x := by
  rw [Regs.procOut, Regs.setCoef_ne r k h, Regs.procOut]

/-- A coefficient write and a sample of different sections can be exchanged. -/
theorem Regs.proc_setCoef_comm {b b' : Band} (h : b ≠ b') (k : Coeffs α) (x : α) :
    (r.setCoef b k).proc N b' x = (r.proc N b' x).setCoef b k := by
  rw [Regs.proc, Regs.setCoef_ne r k h.symm, Regs.setCoef, Regs.setSec_comm r _ _ h, Regs.setCoef,
    Regs.proc_ne N r x h, Regs.proc]

end Tuples

/-- Settles O14: the two operations answer, and the sample computes with the tuple just written. -/
theorem publishedTupleIsUsedAtOnce : Obligations.PublishedTupleIsUsedAtOnce := by
  refine onEveryBuild fun B b ff c1 c2 d1 d2 x s => ⟨_, _, rfl, rfl, ?_⟩
  rw [← Regs.procOut_setCoef_self]
  exact audioAnswered_finishAudio ..

/-- Settles O15: the two writes go to different sections, and the sample does not see the tuple. -/
theorem setcAndProcOfOtherSectionsCommute : Obligations.SetcAndProcOfOtherSectionsCommute := by
  refine onEveryBuild fun B b b' ff c1 c2 d1 d2 x s hb => ⟨_, _, _, rfl, rfl, rfl, ?_⟩
  rw [State.finishCtrl_regs, Regs.proc_setCoef_comm B.num s.regs hb, Regs.procOut_setCoef_ne B.num s.regs hb.symm]
  rfl

/-- Settles O55: the steps computed one after the other, each of which writes its own section alone. -/
theorem settersMayFallInsideEqProc : Obligations.SettersMayFallInsideEqProc :=
  onEveryBuild fun _ _ _ _ _ => ⟨_, _, _, _, rfl, rfl, rfl, rfl, rfl, rfl, rfl⟩

end Sys2Proof.Machine

/-! ### Commands and the operations they name (30_encoding.md R62 to R69)

A header names at most one operation and an operation has one header, so the rules that speak of headers (the list of
seventeen, the match and mask rows, the reserved ones) are read off the operation a header names. -/

namespace Sys2Proof

open Sys2Proof.Machine (reservedByRule validHeaders operandCount rightPort)

section Headers

variable {h h' : Header} {o : Opcode} {b : Band}

/-- OP, RSV and SEL are the whole of a header (30_encoding.md R63). -/
theorem Header.eq_of_fields (hop : Header.op h = Header.op h') (hrsv : Header.rsv h = Header.rsv h')
    (hsel : Header.sel h = Header.sel h') : h = h' := by
  unfold Header.op at hop
  unfold Header.rsv at hrsv
  unfold Header.sel at hsel
  exact BitVec.eq_of_toNat_eq (by omega)

theorem Band.toSel_of_ofSel {n : Nat} (hn : Band.ofSel n = some b) : b.toSel = n := by
  unfold Band.ofSel at hn
  split at hn <;> cases hn <;> rfl

theorem Opcode.header_rsv (o : Opcode) : Header.rsv o.header = 0 := by
  cases o with
  | bqReset b | bqSetc b | bqProc b => cases b <;> rfl
  | _ => rfl

/-- The operation that OP and SEL name has them in its header. -/
theorem Opcode.fields_of_ofFields {op sel : Nat} (ho : Opcode.ofFields op sel = some o) :
    Header.op o.header = op ∧ Header.sel o.header = sel := by
  unfold Opcode.ofFields at ho
  split at ho
  case h_4 => split at ho <;> cases ho <;> exact ⟨rfl, rfl⟩
  case h_5 =>
    unfold Opcode.ofUnselected at ho
    split at ho
    next hsel => subst hsel; split at ho <;> cases ho <;> exact ⟨rfl, rfl⟩
    next => cases ho
  all_goals
    obtain ⟨b, hb, rfl⟩ := Option.map_eq_some_iff.mp ho
    rw [← Band.toSel_of_ofSel hb]
    cases b <;> exact ⟨rfl, rfl⟩

@[simp] theorem Opcode.ofHeader_header (o : Opcode) : Opcode.ofHeader o.header = some o := by
  cases o with
  | bqReset b | bqSetc b | bqProc b => cases b <;> rfl
  | _ => rfl

/-- A header names an operation exactly when it is that operation's header (30_encoding.md R65). -/
theorem Opcode.ofHeader_eq_some : Opcode.ofHeader h = some o ↔ o.header = h := by
  refine ⟨fun ho => ?_, fun ho => ho ▸ o.ofHeader_header⟩
  unfold Opcode.ofHeader at ho
  split at ho
  next hrsv =>
    obtain ⟨hop, hsel⟩ := Opcode.fields_of_ofFields ho
    exact Header.eq_of_fields hop (o.header_rsv.trans hrsv.symm) hsel
  next => cases ho

theorem mem_validHeaders : h ∈ validHeaders ↔ ∃ o, Opcode.ofHeader h = some o := by
  constructor
  · have hall : ∀ h ∈ validHeaders, ∃ o, Opcode.ofHeader h = some o := by
      simp only [← Option.isSome_iff_exists]
      decide
    exact hall h
  · rintro ⟨o, ho⟩
    rw [← Opcode.ofHeader_eq_some.mp ho]
    cases o with
    | bqReset b | bqSetc b | bqProc b => cases b <;> decide
    | _ => decide

/-- The reserved headers of 30_encoding.md R66 name no operation, and every other byte names one. -/
theorem reservedByRule_eq_isNone : ∀ h : Header, reservedByRule h = (Opcode.ofHeader h).isNone := by decide

/-- A byte has a match and mask row exactly when its fields name an operation. -/
theorem rowOf_isSome : ∀ h : Header, (rowOf h).isSome = (Opcode.ofHeader h).isSome := by decide

theorem reservedByRule_iff_ofHeader : reservedByRule h = true ↔ Opcode.ofHeader h = none := by
  rw [reservedByRule_eq_isNone, Option.isNone_iff_eq_none]

theorem reservedByRule_iff_not_mem : reservedByRule h = true ↔ h ∉ validHeaders := by
  rw [reservedByRule_iff_ofHeader, mem_validHeaders, ← Option.ne_none_iff_exists', not_not]

/-- The reserved headers are the 256 bytes without the seventeen valid ones. -/
theorem length_filter_reservedByRule :
    ((List.range 256).filter fun n => reservedByRule (BitVec.ofNat 8 n)).length = 239 := by
  have hfilter : (Finset.range 256).filter (fun n => reservedByRule (BitVec.ofNat 8 n) = true) =
      Finset.range 256 \ (validHeaders.map BitVec.toNat).toFinset := by
    ext n
    simp only [Finset.mem_filter, Finset.mem_sdiff, reservedByRule_iff_not_mem, List.mem_toFinset, List.mem_map]
    refine and_congr_right fun hn => not_congr ⟨fun h => ⟨_, h, ?_⟩, ?_⟩
    · exact (BitVec.toNat_ofNat ..).trans (Nat.mod_eq_of_lt (Finset.mem_range.mp hn))
    · rintro ⟨h, hh, rfl⟩
      rwa [BitVec.ofNat_toNat, BitVec.setWidth_eq]
  have hvalid : (validHeaders.map BitVec.toNat).toFinset ⊆ Finset.range 256 := fun n hn => by
    obtain ⟨h, -, rfl⟩ := List.mem_map.mp (List.mem_toFinset.mp hn)
    exact Finset.mem_range.mpr h.isLt
  calc ((List.range 256).filter fun n => reservedByRule (BitVec.ofNat 8 n)).length
      = ((Finset.range 256).filter fun n => reservedByRule (BitVec.ofNat 8 n) = true).card := by
        simp [Finset.card, Finset.filter, Finset.range, Multiset.range]
    _ = (Finset.range 256 \ (validHeaders.map BitVec.toNat).toFinset).card := by rw [hfilter]
    _ = 256 - 17 := by rw [Finset.card_sdiff_of_subset hvalid, Finset.card_range]; rfl

end Headers

section Operands

variable {o : Opcode} {ops : List NUM} {i : Instr}

@[simp] theorem Instr.length_operands (i : Instr) : i.operands.length = i.opcode.arity := by
  cases i <;> rfl

/-- The instruction an opcode gives with its operands has those operands. -/
theorem Opcode.operands_of_apply (h : o.apply ops = some i) : i.operands = ops := by
  unfold Opcode.apply at h
  split at h <;> cases h <;> rfl

@[simp] theorem Instr.opcode_apply_operands (i : Instr) : i.opcode.apply i.operands = some i := by
  cases i <;> rfl

/-- An opcode and its operands make an instruction exactly when they are its own (30_encoding.md R64). -/
theorem Opcode.apply_eq_some : o.apply ops = some i ↔ i.opcode = o ∧ i.operands = ops := by
  constructor
  · exact fun h => ⟨Opcode.opcode_of_apply h, Opcode.operands_of_apply h⟩
  · rintro ⟨rfl, rfl⟩
    exact i.opcode_apply_operands

/-- An opcode takes every list of as many operands as it has, and no other (30_encoding.md R67). -/
theorem Opcode.exists_apply : (∃ i, o.apply ops = some i) ↔ ops.length = o.arity := by
  constructor
  · rintro ⟨i, h⟩
    obtain ⟨rfl, rfl⟩ := Opcode.apply_eq_some.mp h
    exact i.length_operands
  · intro h
    cases o with
    | bqReset b => match ops, h with | [], _ => exact ⟨_, rfl⟩
    | bqSetc b => match ops, h with | [_, _, _, _, _], _ => exact ⟨_, rfl⟩
    | fdLsh | fdPeak | fdHsh => match ops, h with | [_, _, _, _], _ => exact ⟨_, rfl⟩
    | _ => match ops, h with | [_], _ => exact ⟨_, rfl⟩

theorem Opcode.apply_eq_none : o.apply ops = none ↔ ops.length ≠ o.arity := by
  rw [ne_eq, ← Opcode.exists_apply, ← Option.ne_none_iff_exists', not_not]

end Operands

section Decoding

variable {p : Port} {c : Command} {i : Instr} {o : Opcode} {h : Header}

theorem operandCount_of_ofHeader (ho : Opcode.ofHeader h = some o) : operandCount h = o.arity := by
  rw [← Opcode.ofHeader_eq_some.mp ho]
  cases o with
  | bqReset b | bqSetc b | bqProc b => cases b <;> rfl
  | _ => rfl

theorem rightPort_of_ofHeader (ho : Opcode.ofHeader h = some o) : rightPort h = o.port := by
  rw [← Opcode.ofHeader_eq_some.mp ho]
  cases o with
  | bqReset b | bqSetc b | bqProc b => cases b <;> rfl
  | _ => rfl

/-- The match and mask rows accept a command by the three rules on header, operand count and port. -/
theorem wellFormed_iff : c.wellFormed p = true ↔
    c.header ∈ validHeaders ∧ c.ops.length = operandCount c.header ∧ p = rightPort c.header := by
  cases ho : Opcode.ofHeader c.header with
  | none =>
    have hrow : rowOf c.header = none := by simpa [ho] using rowOf_isSome c.header
    simp [Command.wellFormed, Command.headerValid, mem_validHeaders, hrow, ho]
  | some o =>
    obtain ⟨r, hr, ha, hp⟩ := rowOf_header o
    rw [Opcode.ofHeader_eq_some.mp ho] at hr
    simp [Command.wellFormed, Command.headerValid, Command.operandsOk, Command.portOk, mem_validHeaders,
      operandCount_of_ofHeader ho, rightPort_of_ofHeader ho, hr, ha, hp, ho, eq_comm (a := p)]

/-- The command of an instruction, on any port (30_encoding.md R62 to R65, R68). -/
theorem decode_encode (p : Port) (i : Instr) :
    decode p (encode i) = if i.port = p then .ok i else .error .wrongPort := by
  simp only [decode, encode, Opcode.ofHeader_header, Instr.opcode_apply_operands]
  rfl

/-- A command with the header of an operation and as many operands is the command of an instruction. -/
theorem exists_encode (ho : Opcode.ofHeader c.header = some o) (hn : c.ops.length = o.arity) :
    ∃ i : Instr, i.opcode = o ∧ encode i = c := by
  obtain ⟨i, hi⟩ := Opcode.exists_apply.mpr hn
  obtain ⟨rfl, hops⟩ := Opcode.apply_eq_some.mp hi
  exact ⟨i, rfl, by rw [encode, hops, Opcode.ofHeader_eq_some.mp ho]⟩

/-- What decoding a command can give, by the rules on header, operand count and port (30_encoding.md R66 to R68). -/
theorem decode_cases (p : Port) (c : Command) :
    (c.header ∉ validHeaders ∧ decode p c = .error .reservedHeader) ∨
    (c.header ∈ validHeaders ∧ c.ops.length ≠ operandCount c.header ∧ decode p c = .error .malformedOperands) ∨
    (c.header ∈ validHeaders ∧ c.ops.length = operandCount c.header ∧ p ≠ rightPort c.header ∧
      decode p c = .error .wrongPort) ∨
    (c.header ∈ validHeaders ∧ c.ops.length = operandCount c.header ∧ p = rightPort c.header ∧
      ∃ i, encode i = c ∧ decode p c = .ok i) := by
  cases ho : Opcode.ofHeader c.header with
  | none => exact .inl ⟨by simp [mem_validHeaders, ho], by simp [decode, ho]⟩
  | some o =>
    rw [operandCount_of_ofHeader ho, rightPort_of_ofHeader ho]
    have hmem : c.header ∈ validHeaders := mem_validHeaders.mpr ⟨o, ho⟩
    by_cases hn : c.ops.length = o.arity
    · obtain ⟨i, rfl, hi⟩ := exists_encode ho hn
      have hd := decode_encode p i
      rw [hi] at hd
      by_cases hp : p = i.opcode.port
      · exact .inr (.inr (.inr ⟨hmem, hn, hp, i, hi, hd.trans (if_pos hp.symm)⟩))
      · exact .inr (.inr (.inl ⟨hmem, hn, hp, hd.trans (if_neg (Ne.symm hp))⟩))
    · exact .inr (.inl ⟨hmem, hn, by simp [decode, ho, Opcode.apply_eq_none.mpr hn]⟩)

theorem decode_eq_reservedHeader : decode p c = .error .reservedHeader ↔ c.header ∉ validHeaders := by
  obtain ⟨hh, hd⟩ | ⟨hh, _, hd⟩ | ⟨hh, _, _, hd⟩ | ⟨hh, _, _, _, _, hd⟩ := decode_cases p c <;> simp [hh, hd]

theorem decode_eq_malformedOperands : decode p c = .error .malformedOperands ↔
    c.header ∈ validHeaders ∧ c.ops.length ≠ operandCount c.header := by
  obtain ⟨hh, hd⟩ | ⟨hh, hn, hd⟩ | ⟨hh, hn, _, hd⟩ | ⟨hh, hn, rfl, _, _, hd⟩ := decode_cases p c <;> simp [*]

theorem decode_eq_wrongPort : decode p c = .error .wrongPort ↔
    c.header ∈ validHeaders ∧ c.ops.length = operandCount c.header ∧ p ≠ rightPort c.header := by
  obtain ⟨hh, hd⟩ | ⟨hh, hn, hd⟩ | ⟨hh, hn, hp, hd⟩ | ⟨hh, hn, rfl, _, _, hd⟩ := decode_cases p c <;> simp [*]

theorem exists_decode_eq_ok : (∃ i, decode p c = .ok i) ↔
    c.header ∈ validHeaders ∧ c.ops.length = operandCount c.header ∧ p = rightPort c.header := by
  obtain ⟨hh, hd⟩ | ⟨hh, hn, hd⟩ | ⟨hh, hn, hp, hd⟩ | ⟨hh, hn, rfl, _, _, hd⟩ := decode_cases p c <;> simp [*]

/-- A command that decodes is the command of what it decodes to (30_encoding.md R65). -/
theorem encode_of_decode (hd : decode p c = .ok i) : encode i = c := by
  obtain ⟨_, he⟩ | ⟨_, _, he⟩ | ⟨_, _, _, he⟩ | ⟨_, _, _, j, hj, he⟩ := decode_cases p c <;> cases he.symm.trans hd
  exact hj

theorem Instr.port_eq_audio : i.port = .audio ↔ (∃ b x, i = .bqProc b x) ∨ ∃ x, i = .eqProc x := by
  cases i <;> simp [Instr.port, Instr.opcode, Opcode.port]

end Decoding

end Sys2Proof

namespace Sys2Proof.Machine

variable {B : Build} {run : Run} {s : State} {p : Port} {c : Command} {e : DecodeError}

/-- A step that takes a command which names no operation is refused by the decoder's reason (60_exceptions.md R172). -/
theorem advance_of_decode_error (ht : s.takes B p c) (hd : decode p c = .error e) :
    advance B run s = .refused (refusalOf e) := by
  rw [advance_of_takes ht, startCommand, hd]

/-- Settles O4: the header names the operation's code, and the code takes the operands back. -/
theorem decodeAfterEncode : Obligations.DecodeAfterEncode :=
  fun i => (decode_encode i.port i).trans (if_pos rfl)

/-- Settles O5: the only outcome of the decoder that is an instruction is on the command of that instruction. -/
theorem encodeAfterDecode : Obligations.EncodeAfterDecode :=
  fun _ _ _ hd => ⟨port_of_decode hd, encode_of_decode hd⟩

/-- Settles O6: both the decoder and the rows accept by the same three rules on header, operand count and port. -/
theorem decodeAcceptsExactlyTheMap : Obligations.DecodeAcceptsExactlyTheMap :=
  fun _ _ => exists_decode_eq_ok.trans wellFormed_iff.symm

/-- Settles O7: the seventeen valid headers are those that name an operation, and the decoder asks for that first. -/
theorem reservedHeadersAreRefused : Obligations.ReservedHeadersAreRefused :=
  ⟨fun _ => reservedByRule_iff_not_mem, length_filter_reservedByRule,
    fun _ _ => decode_eq_reservedHeader.trans reservedByRule_iff_not_mem.symm,
    onEveryMachine fun _ _ _ _ ht hr =>
      advance_of_decode_error ht (decode_eq_reservedHeader.mpr (reservedByRule_iff_not_mem.mp hr))⟩

/-- Settles O8: a valid header names its operand count, which the decoder asks for before the port. -/
theorem wrongOperandCountIsRefused : Obligations.WrongOperandCountIsRefused :=
  ⟨fun _ _ => decode_eq_malformedOperands, onEveryMachine fun _ _ _ _ ht hh hn =>
    advance_of_decode_error ht (decode_eq_malformedOperands.mpr ⟨hh, hn⟩)⟩

/-- Settles O9: what is left to refuse, header and operand count being right, is the port. -/
theorem wrongPortIsRefused : Obligations.WrongPortIsRefused :=
  ⟨fun _ _ => decode_eq_wrongPort, fun _ => Instr.port_eq_audio, onEveryMachine fun _ _ _ _ ht hh hn hp =>
    advance_of_decode_error ht (decode_eq_wrongPort.mpr ⟨hh, hn, hp⟩)⟩

theorem decodeTableWord_eq_some {n w : Nat} {i : Instr} :
    decodeTableWord n w = some i ↔ decode (tableCommand w).1 (tableCommand w).2 = .ok i := by
  unfold decodeTableWord
  split <;> simp_all

@[simp] theorem State.clearBusy_queueOf (s : State) (p p' : Port) : (s.clearBusy p).queueOf p' = s.queueOf p' := by
  cases p <;> cases p' <;> rfl

@[simp] theorem State.idle_otherPort_queueOf (s : State) (p : Port) :
    (s.idle (otherPort p)).queueOf p = s.queueOf p := by
  cases p <;> rfl

@[simp] theorem State.clearBusy_responses (s : State) (p : Port) :
    (s.clearBusy p).audio.responses = s.audio.responses ∧ (s.clearBusy p).ctrl.responses = s.ctrl.responses := by
  cases p <;> exact ⟨rfl, rfl⟩

/-- The next step runs a presented command that decodes, on a state in which its port has nothing in progress and the
other port is idle. -/
theorem advance_presentNext {i : Instr} (hd : decode p c = .ok i) :
    advance B run (s.presentNext p c) = run i ((s.idle (otherPort p)).clearBusy p) := by
  obtain ⟨ht, hq, hs⟩ := presentNext_cases B s p c
  rw [advance_of_decode ht hd, hq, List.tail_cons, hs]

/-- Settles O10: the placed command is the one the next step takes, and placing it leaves registers, responses and its
port's stream alone. -/
theorem tableWordRunsNext : Obligations.TableWordRunsNext := by
  intro s w i hw
  have hd := decodeTableWord_eq_some.mp hw
  refine ⟨(s.idle (otherPort i.port)).clearBusy i.port, ?_, fun B => ?_, ?_, ?_, ?_, ?_⟩
  · rw [port_of_decode hd]
    exact advance_presentNext hd
  · rw [port_of_decode hd]
    exact advance_presentNext hd
  all_goals simp

/-- Settles O3: each command is the command of its operation, written out. -/
theorem headerWordsDecodeAsTheMapSays : Obligations.HeaderWordsDecodeAsTheMapSays :=
  ⟨decodeAfterEncode (.bqReset .treble), decodeAfterEncode (.bqSetc .mid 1 2 3 4 5),
    decodeAfterEncode (.bqProc .bass 7), decodeAfterEncode (.fdLsh 1 2 3 4), decodeAfterEncode (.fdPeak 1 2 3 4),
    decodeAfterEncode (.fdHsh 1 2 3 4), decodeAfterEncode (.eqInit 9), decodeAfterEncode (.eqSetTreb 9),
    decodeAfterEncode (.eqProc 9)⟩

/-- Settles O45: a port that moves goes on with what it has in progress before it looks at its stream. -/
theorem stepResumesTheComposite : Obligations.StepResumesTheComposite :=
  onEveryMachine fun _ =>
    ⟨fun _ _ hm hb => (stepOn_of_mover hm).trans (stepPort_of_audio_busy hb),
      fun _ _ hm hb => (stepOn_of_mover hm).trans (stepPort_of_ctrl_busy hb)⟩

end Sys2Proof.Machine

/-! ### The three biquad operations (40_biquad_section.md R81 to R83) -/

namespace Sys2Proof.Machine

section BiquadOps

variable {α : Type} {B : Build} {s : State} {b : Band} {x y : NUM}

/-- A command of CTRL that completes is answered with its results. -/
theorem ctrlAnswered_finishCtrl (s : State) (r : Regs NUM) (res : List NUM) :
    CtrlAnswered s (s.finishCtrl r res) res :=
  ⟨⟨rfl, rfl⟩, rfl, rfl⟩

/-- A coefficient write touches the registers of its section alone (10_state.md R27). -/
theorem onlySection_setCoef (r : Regs α) (b : Band) (k : Coeffs α) : OnlySection b r (r.setCoef b k) :=
  ⟨fun _ h => Regs.setCoef_ne r k h, Regs.setCoef_fs r b k, Regs.setCoef_fsWritten r b k⟩

/-- Zeroing delay registers that are zero changes nothing. -/
theorem Regs.zero_of_rest {N : Numerics α} {r : Regs α} (h1 : (r.sec b).z1 = N.lit 0)
    (h2 : (r.sec b).z2 = N.lit 0) : r.zero N b = r := by
  have hsame : r.setDelays b (r.sec b).z1 (r.sec b).z2 = r := Regs.setSec_sec r b
  rwa [h1, h2] at hsame

/-- What BQ.PROC does, by what the recurrence of its section answers. -/
theorem execOn_bqProc (hy : recurrence B.num (s.regs.sec b) x = y) :
    ∃ t, execOn B (.bqProc b x) s = .next t ∧
      t.regs.sec b = { coef := (s.regs.sec b).coef, z1 := y, z2 := (s.regs.sec b).z1 } ∧
      OnlySection b s.regs t.regs ∧ AudioAnswered s t [y] := by
  subst hy
  exact ⟨_, rfl, Regs.proc_self .., onlySection_proc .., audioAnswered_finishAudio ..⟩

end BiquadOps

/-- Settles O11: the operation writes zeros to the delay pair of its section and to nothing else. -/
theorem bqResetZeroesItsDelays : Obligations.BqResetZeroesItsDelays :=
  onEveryBuild fun _ _ _ =>
    ⟨⟨_, rfl, Regs.zero_self .., onlySection_zero .., ctrlAnswered_finishCtrl .., Regs.zero_of_rest⟩, rfl, rfl⟩

/-- Settles O12: the operation writes the five values to the bank of its section and to nothing else. -/
theorem bqSetcReplacesTheTuple : Obligations.BqSetcReplacesTheTuple :=
  onEveryBuild fun _ _ _ _ _ _ _ _ =>
    ⟨⟨_, rfl, Regs.setCoef_self .., onlySection_setCoef .., ctrlAnswered_finishCtrl ..⟩, rfl, rfl⟩

/-- Settles O13: the seven operations are those of `recurrence`, in its order. -/
theorem bqProcComputesTheRecurrence : Obligations.BqProcComputesTheRecurrence :=
  ⟨onEveryBuild fun _ _ _ _ => ⟨execOn_bqProc rfl, rfl, rfl⟩, recurrence_exact⟩

end Sys2Proof.Machine

/-! ### Silent and identity sections (40_biquad_section.md R86, R87) -/

namespace Sys2Proof.Machine

/-- Two samples of a section with zero coefficients shift two zeros into its delay registers. -/
theorem silent_two_samples {α : Type} {N : Numerics α} (h : ZeroLaws N) {c : BiquadSection α}
    (hc : c.coef = { ff := N.lit 0, c1 := N.lit 0, c2 := N.lit 0, d1 := N.lit 0, d2 := N.lit 0 }) (x x' : α) :
    sectionRun N c [x, x'] = [N.lit 0, N.lit 0] ∧ (sectionAfter N c [x, x']).z1 = N.lit 0 ∧
      (sectionAfter N c [x, x']).z2 = N.lit 0 := by
  have hx : recurrence N c x = N.lit 0 := recurrence_silent h hc x
  have hx' : recurrence N (c.advance N x) x' = N.lit 0 := recurrence_silent (c := c.advance N x) h hc x'
  exact ⟨by rw [sectionRun, sectionRun, sectionRun, hx, hx'], hx', hx⟩

/-- Settles O20: a zero tuple answers zero whatever the delay registers hold. -/
theorem zeroCoefficientsGiveSilence : Obligations.ZeroCoefficientsGiveSilence := by
  refine ⟨fun _ _ _ _ x x' h => silent_two_samples h rfl x x', ⟨zeroLaws_real, zeroLaws_exact⟩,
    fun c x x' hff => ?_, onEveryBuild fun B b x s h hk => ?_⟩
  · rw [recurrence_real, recurrence_real, hff, zero_mul, zero_mul]
  · obtain ⟨t, hrun, hsec, -, hans⟩ := execOn_bqProc (recurrence_silent h hk x)
    exact ⟨t, hrun, hans, by rw [hsec], by rw [hsec]⟩

/-- Where the sample rate is positive, the clamped frequency is not negative and stays below the Nyquist limit
(41_filter_designer.md R102). -/
theorem clampF_real_mem {P : ClampParams} {fs : ℝ} (f : ℝ) (hfs : 0 < fs) :
    0 ≤ clampF real P fs f ∧ clampF real P fs f ≤ fs / 2 := by
  have hpos : (0 : ℝ) < P.nyqFrac := by exact_mod_cast P.nyqFrac_pos
  have hlt : (P.nyqFrac : ℝ) < 1 := by exact_mod_cast P.nyqFrac_lt_one
  simp only [clampF, minN_real, maxN_real, real_lit, real_mul, real_div, fFloor]
  push_cast
  refine ⟨le_min (le_max_right _ _) (by positivity), (min_le_right _ _).trans ?_⟩
  nlinarith

/-- Where the sample rate is positive, `alpha` is not negative: `w0` lies between 0 and pi
(41_filter_designer.md R104, R105). -/
theorem sharedTerms_real_alpha_nonneg {P : ClampParams} {fs : ℝ} (f q g : ℝ) (hfs : 0 < fs) :
    0 ≤ (sharedTerms real P fs f q g).alpha := by
  obtain ⟨h0, hle⟩ := clampF_real_mem (P := P) f hfs
  have hq : 0 < clampQ real P q := by
    rw [clampQ, maxN_real]
    exact lt_max_of_lt_right (Rat.cast_pos.mpr P.qFloor_pos)
  have hw : omega0 real fs (clampF real P fs f) ∈ Set.Icc 0 Real.pi := by
    have hpi := Real.pi_pos
    simp only [omega0, real_div, real_mul, real_lit, real_pi, Set.mem_Icc]
    push_cast
    refine ⟨by positivity, (div_le_iff₀ hfs).mpr ?_⟩
    nlinarith
  have hsin := Real.sin_nonneg_of_mem_Icc hw
  simp only [sharedTerms, bandwidth, real_div, real_sin, real_mul, real_lit]
  push_cast
  positivity

/-- At gain 0 the amplitude is 1 (41_filter_designer.md R103). -/
@[simp] theorem amplitude_real_zero : amplitude real 0 = 1 := by simp [amplitude]

/-- At amplitude 1 each filter type has equal raw pairs, over a positive `a0` (41_filter_designer.md R107 to R109). -/
theorem rawCoeffs_real_flat (sh : Shape) {t : SharedTerms ℝ} (ht : t.amp = 1) (ha : 0 ≤ t.alpha) :
    let r := rawCoeffs real sh t
    0 < r.a0 ∧ r.b0 = r.a0 ∧ r.b1 = r.a1 ∧ r.b2 = r.a2 := by
  cases sh <;>
    simp [rawCoeffs, rawLowShelf, rawHighShelf, rawPeaking, shelfTerm, ampUp, ampDown, ht] <;> positivity

/-- Equal raw pairs over a nonzero `a0` normalise to an identity tuple (41_filter_designer.md R110). -/
theorem normalise_real_flat {r : RawCoeffs ℝ} (h0 : 0 < r.a0 ∧ r.b0 = r.a0 ∧ r.b1 = r.a1 ∧ r.b2 = r.a2) :
    (normalise real r).ff = 1 ∧ (normalise real r).c1 = (normalise real r).d1 ∧
      (normalise real r).c2 = (normalise real r).d2 := by
  obtain ⟨ha0, hb0, hb1, hb2⟩ := h0
  simp [normalise, hb0, hb1, hb2, ha0.ne']

/-- An identity tuple passes its input, over REAL. -/
theorem recurrence_real_identity {c : BiquadSection ℝ} (hff : c.coef.ff = 1) (h1 : c.coef.c1 = c.coef.d1)
    (h2 : c.coef.c2 = c.coef.d2) (x : ℝ) : recurrence real c x = x := by
  simp [recurrence_real, hff, h1, h2]

/-- Settles O21: with `p1 = p2 = 0` the feedback vanishes, and at amplitude 1 the designer's numerator and denominator
agree. -/
theorem identitySectionPassesItsInput : Obligations.IdentitySectionPassesItsInput := by
  refine ⟨fun c x hff h1 h2 => ?_, fun P sh fs f q hfs => ?_, fun B U b x s hB hff h1 h2 => ?_⟩
  · have hpass : recurrence real c x = x := recurrence_real_identity hff h1 h2 x
    exact ⟨hpass, fun x' => ⟨recurrence_real_identity (c := c.advance real x) hff h1 h2 x', hpass⟩⟩
  · have hrate : rateBad real fs = false := by simpa [← Bool.not_eq_true] using hfs
    exact ⟨_, design_eq_some hrate, normalise_real_flat
      (rawCoeffs_real_flat sh amplitude_real_zero (sharedTerms_real_alpha_nonneg f q 0 hfs))⟩
  · have hy : recurrence B.num (s.regs.sec b) x = x := by simp [hB, recurrence_exact, hff, h1, h2]
    obtain ⟨t, hrun, -, -, hans⟩ := execOn_bqProc hy
    exact ⟨t, hrun, hans⟩

end Sys2Proof.Machine

/-! ### The two-pole form and the impulse response (40_biquad_section.md R84, R88) -/

namespace Sys2Proof.Machine

@[simp] theorem length_sectionRun {α : Type} (N : Numerics α) (c : BiquadSection α) (xs : List α) :
    (sectionRun N c xs).length = xs.length := by
  induction xs generalizing c with
  | nil => rfl
  | cons x xs ih => exact congrArg (· + 1) (ih _)

/-- The element `j` places before place `n` does not see what is appended at place `n` or later. -/
theorem ite_getD_append {α : Type} (l l' : List α) (d : α) {n j : Nat} (hn : n ≤ l.length) (hj : 1 ≤ j) :
    (if j ≤ n then (l ++ l').getD (n - j) d else d) = if j ≤ n then l.getD (n - j) d else d := by
  split
  · exact List.getD_append _ _ _ _ (by omega)
  · rfl

/-- The elements of a reversed list are those before the end of the list. -/
theorem getD_reverse_eq_ite {α : Type} (l : List α) (i : Nat) (d : α) :
    l.reverse.getD i d = if i + 1 ≤ l.length then l.getD (l.length - (i + 1)) d else d := by
  split
  · rw [List.getD_reverse i (by omega), Nat.sub_sub, Nat.add_comm 1 i]
  · exact List.getD_eq_default _ _ (by simp; omega)

/-- The recurrence over REAL in two-pole form: the feedback acts through `p1` and `p2` alone. -/
theorem recurrence_real_poles (c : BiquadSection ℝ) (x : ℝ) :
    recurrence real c x = c.coef.ff * x + c.coef.p1 real * c.z1 + c.coef.p2 real * c.z2 := rfl

/-- The next sample of a section that was at rest, in two-pole form: its delay registers hold the last two outputs. -/
theorem recurrence_after_rest (k : Coeffs ℝ) (xs : List ℝ) (x : ℝ) :
    let ys := sectionRun real (restingSection real k) xs
    recurrence real (sectionAfter real (restingSection real k) xs) x = k.ff * x
      + k.p1 real * (if 1 ≤ xs.length then ys.getD (xs.length - 1) 0 else 0)
      + k.p2 real * (if 2 ≤ xs.length then ys.getD (xs.length - 2) 0 else 0) := by
  obtain ⟨hz1, hz2, hk⟩ := delayRegistersHoldTheLastOutputs ℝ real k xs
  simp only [recurrence_real_poles, hz1, hz2, hk, getD_reverse_eq_ite, length_sectionRun, real_lit, Rat.cast_zero]

/-- The outputs from rest in two-pole form, by induction on the samples from the last one. -/
theorem getD_sectionRun_from_rest (k : Coeffs ℝ) (xs : List ℝ) (n : Nat) (hn : n < xs.length) :
    let ys := sectionRun real (restingSection real k) xs
    ys.getD n 0 = k.ff * xs.getD n 0 + k.p1 real * (if 1 ≤ n then ys.getD (n - 1) 0 else 0)
      + k.p2 real * (if 2 ≤ n then ys.getD (n - 2) 0 else 0) := by
  induction xs using List.reverseRecOn with
  | nil => cases hn
  | append_singleton xs x ih =>
    have hle : n ≤ xs.length := by simpa [Nat.lt_succ_iff] using hn
    have hle' : n ≤ (sectionRun real (restingSection real k) xs).length := by simpa using hle
    simp only [sectionRun_append, ite_getD_append _ _ _ hle' le_rfl, ite_getD_append _ _ _ hle' one_le_two]
    obtain hlt | rfl := hle.lt_or_eq
    · rw [List.getD_append _ _ _ _ (by simpa using hlt), List.getD_append _ _ _ _ hlt]
      exact ih hlt
    · rw [List.getD_append_right _ _ _ _ (by simp), List.getD_append_right _ _ _ _ le_rfl]
      simpa [sectionRun] using recurrence_after_rest k xs x

/-- Two tuples with the same `ff`, `p1` and `p2` answer alike from the same delay registers. -/
theorem sectionRun_real_congr {k k' : Coeffs ℝ} (hff : k.ff = k'.ff) (h1 : k.p1 real = k'.p1 real)
    (h2 : k.p2 real = k'.p2 real) (z1 z2 : ℝ) (xs : List ℝ) :
    sectionRun real { coef := k, z1 := z1, z2 := z2 } xs = sectionRun real { coef := k', z1 := z1, z2 := z2 } xs := by
  induction xs generalizing z1 z2 with
  | nil => rfl
  | cons x xs ih =>
    have hy : recurrence real { coef := k, z1 := z1, z2 := z2 } x =
        recurrence real { coef := k', z1 := z1, z2 := z2 } x := by
      simp only [recurrence_real_poles, hff, h1, h2]
    simp only [sectionRun, BiquadSection.advance, hy, ih]

/-! #### The impulse response -/

/-- The section that answers sample `n` of the impulse response. -/
noncomputable def impulseSection (k : Coeffs ℝ) (n : Nat) : BiquadSection ℝ :=
  sectionAfter real (restingSection real k) ((impulse real n).take n)

theorem impulseResponse_eq (k : Coeffs ℝ) (n : Nat) :
    impulseResponse k n = recurrence real (impulseSection k n) (if n = 0 then 1 else 0) := rfl

@[simp] theorem impulseSection_zero (k : Coeffs ℝ) : impulseSection k 0 = restingSection real k := rfl

/-- The samples before place `n + 1` of the impulse are those before place `n` and the one at `n`. -/
theorem take_impulse_succ (n : Nat) :
    (impulse real (n + 1)).take (n + 1) = (impulse real n).take n ++ [if n = 0 then 1 else 0] := by
  cases n with
  | zero => simp [impulse]
  | succ n => simp [impulse, List.take_replicate, ← List.replicate_succ']

@[simp] theorem impulseSection_succ (k : Coeffs ℝ) (n : Nat) :
    impulseSection k (n + 1) = (impulseSection k n).advance real (if n = 0 then 1 else 0) := by
  rw [impulseSection, take_impulse_succ, sectionAfter_append]
  rfl

@[simp] theorem impulseSection_coef (k : Coeffs ℝ) (n : Nat) : (impulseSection k n).coef = k := by
  induction n with
  | zero => rfl
  | succ n ih => rw [impulseSection_succ, BiquadSection.advance_coef, ih]

theorem impulseSection_z1 (k : Coeffs ℝ) (n : Nat) : (impulseSection k (n + 1)).z1 = impulseResponse k n := by
  rw [impulseSection_succ, BiquadSection.advance_z1, impulseResponse_eq]

theorem impulseSection_z2 (k : Coeffs ℝ) (n : Nat) : (impulseSection k (n + 2)).z2 = impulseResponse k n := by
  rw [impulseSection_succ, BiquadSection.advance_z2, impulseSection_z1]

theorem impulseResponse_zero (k : Coeffs ℝ) : impulseResponse k 0 = k.ff := by
  simp [impulseResponse_eq, recurrence_real, restingSection]

theorem impulseResponse_one (k : Coeffs ℝ) : impulseResponse k 1 = k.p1 real * k.ff := by
  have hz2 : (impulseSection k 1).z2 = 0 := by simp [restingSection]
  rw [impulseResponse_eq, recurrence_real_poles, impulseSection_z1, impulseResponse_zero, hz2, impulseSection_coef]
  simp

/-- The impulse response follows the two-pole recurrence with no input. -/
theorem impulseResponse_add_two (k : Coeffs ℝ) (n : Nat) :
    impulseResponse k (n + 2) = k.p1 real * impulseResponse k (n + 1) + k.p2 real * impulseResponse k n := by
  rw [impulseResponse_eq, recurrence_real_poles, impulseSection_z1, impulseSection_z2, impulseSection_coef]
  simp

/-- Settles O17: the delay registers hold the last two outputs, and the recurrence reads them through `p1` and `p2`. -/
theorem twoPoleFormOfTheRecurrence : Obligations.TwoPoleFormOfTheRecurrence :=
  ⟨getD_sectionRun_from_rest,
    fun k => ⟨impulseResponse_zero k, impulseResponse_one k, impulseResponse_add_two k⟩,
    fun _ _ => sectionRun_real_congr⟩

/-! #### An output that grows by one with every sample (60_exceptions.md R163) -/

/-- A section with a double pole at 1 whose last two outputs were `v` and `v + 1`. -/
def rampSection (v : NUM) : BiquadSection NUM :=
  { coef := { ff := 1, c1 := 2, c2 := 0, d1 := 0, d2 := 1 }, z1 := v + 1, z2 := v }

/-- With no input such a section goes on to `v + 2`. -/
theorem recurrence_rampSection (U : Units) (v : NUM) : recurrence (exactNum U) (rampSection v) 0 = v + 2 := by
  simp only [recurrence_exact, rampSection]
  ring

theorem advance_rampSection (U : Units) (v : NUM) :
    (rampSection v).advance (exactNum U) 0 = rampSection (v + 1) := by
  rw [BiquadSection.advance, recurrence_rampSection]
  simp only [rampSection, BiquadSection.mk.injEq, true_and, and_true]
  ring

/-- After `n` further zeros the output has grown by `n`. -/
theorem mem_sectionRun_rampSection (U : Units) (v : NUM) (n : Nat) :
    v + n + 2 ∈ sectionRun (exactNum U) (rampSection v) (List.replicate (n + 1) 0) := by
  induction n generalizing v with
  | zero => simp [sectionRun, recurrence_rampSection]
  | succ n ih =>
    rw [List.replicate_succ, sectionRun, advance_rampSection, Nat.cast_succ, add_comm (n : NUM) 1, ← add_assoc v]
    exact List.mem_cons_of_mem _ (ih (v + 1))

/-- Settles O19: the impulse leaves the outputs 0 and 1 in the delay registers, from where they grow by one with every
zero, past any bound. -/
theorem outputGrowsWithoutBound : Obligations.OutputGrowsWithoutBound := by
  intro U bound
  obtain ⟨n, hn⟩ := exists_nat_gt bound
  have hfirst : (restingSection (exactNum U) { ff := 1, c1 := 2, c2 := 0, d1 := 0, d2 := 1 }).advance (exactNum U) 1 =
      rampSection 0 := by
    simp [BiquadSection.advance, recurrence_exact, restingSection, rampSection]
  refine ⟨n + 1, 0 + n + 2, ?_, by linarith⟩
  rw [impulse, sectionRun, exact_lit, exact_lit, hfirst]
  exact List.mem_cons_of_mem _ (mem_sectionRun_rampSection U 0 n)

end Sys2Proof.Machine

/-! ### Stability of the impulse response (40_biquad_section.md R89)

Over the complex numbers the two-pole recurrence has two poles, the roots `r` and `s` of `z ^ 2 = p1 * z + p2`. The
response less `r` times its predecessor is a multiple of a power of `s`, so the response tends to zero exactly when both
poles lie inside the unit circle, which the test says in terms of `p1` and `p2`. -/

namespace Sys2Proof.Machine

open Filter Topology

section Poles

variable {r s a : ℂ} {h : ℕ → ℂ}

/-- `h` is the impulse response, with first sample `a`, of the two-pole recurrence with the poles `r` and `s`. -/
structure TwoPoleResponse (r s a : ℂ) (h : ℕ → ℂ) : Prop where
  zero : h 0 = a
  one : h 1 = (r + s) * a
  step : ∀ n, h (n + 2) = (r + s) * h (n + 1) - r * s * h n

/-- The two poles play the same part. -/
theorem TwoPoleResponse.swap (H : TwoPoleResponse r s a h) : TwoPoleResponse s r a h :=
  ⟨H.zero, by rw [H.one, add_comm], fun n => by rw [H.step, add_comm, mul_comm r]⟩

/-- Taking one pole off leaves a geometric sequence in the other. -/
theorem TwoPoleResponse.sub_eq (H : TwoPoleResponse r s a h) (n : ℕ) : h (n + 1) - r * h n = a * s ^ (n + 1) := by
  induction n with
  | zero => rw [H.one, H.zero]; ring
  | succ n ih => rw [H.step, pow_succ, ← mul_assoc, ← ih]; ring

/-- A response that tends to zero has its poles inside the unit circle. -/
theorem TwoPoleResponse.norm_lt_one (H : TwoPoleResponse r s a h) (ha : a ≠ 0) (hh : Tendsto h atTop (𝓝 0)) :
    ‖s‖ < 1 := by
  have hsub : Tendsto (fun n => h (n + 1) - r * h n) atTop (𝓝 0) := by
    simpa using (hh.comp (tendsto_add_atTop_nat 1)).sub (hh.const_mul r)
  have hpow : Tendsto (fun n => s ^ (n + 1)) atTop (𝓝 0) := by
    simpa [H.sub_eq, ha] using hsub.const_mul a⁻¹
  exact tendsto_pow_atTop_nhds_zero_iff_norm_lt_one.mp ((tendsto_add_atTop_iff_nat 1).mp hpow)

/-- A response whose poles lie in the circle of radius `ρ` grows at most as `(n + 1) * ρ ^ n`. -/
theorem TwoPoleResponse.norm_le (H : TwoPoleResponse r s a h) {ρ : ℝ} (hr : ‖r‖ ≤ ρ) (hs : ‖s‖ ≤ ρ) (n : ℕ) :
    ‖h n‖ ≤ ‖a‖ * ((n + 1) * ρ ^ n) := by
  have hρ : 0 ≤ ρ := (norm_nonneg r).trans hr
  induction n with
  | zero => simp [H.zero]
  | succ n ih =>
    have hstep : h (n + 1) = r * h n + a * s ^ (n + 1) := by rw [← H.sub_eq]; ring
    calc ‖h (n + 1)‖ ≤ ‖r‖ * ‖h n‖ + ‖a‖ * ‖s‖ ^ (n + 1) := by
          rw [hstep, ← norm_mul, ← norm_pow, ← norm_mul]; exact norm_add_le _ _
      _ ≤ ρ * (‖a‖ * ((n + 1) * ρ ^ n)) + ‖a‖ * ρ ^ (n + 1) := by gcongr
      _ = ‖a‖ * (((n + 1 : ℕ) + 1) * ρ ^ (n + 1)) := by push_cast; ring

/-- A response tends to zero exactly when its poles lie inside the unit circle. -/
theorem TwoPoleResponse.tendsto_iff (H : TwoPoleResponse r s a h) (ha : a ≠ 0) :
    Tendsto h atTop (𝓝 0) ↔ ‖r‖ < 1 ∧ ‖s‖ < 1 := by
  refine ⟨fun hh => ⟨H.swap.norm_lt_one ha hh, H.norm_lt_one ha hh⟩, fun ⟨hr, hs⟩ => ?_⟩
  have hρ0 : 0 ≤ max ‖r‖ ‖s‖ := le_max_of_le_left (norm_nonneg r)
  have hρ1 : max ‖r‖ ‖s‖ < 1 := max_lt hr hs
  have hbound : Tendsto (fun n : ℕ => ‖a‖ * ((n + 1) * max ‖r‖ ‖s‖ ^ n)) atTop (𝓝 0) := by
    simpa [add_mul] using ((tendsto_self_mul_const_pow_of_lt_one hρ0 hρ1).add
      (tendsto_pow_atTop_nhds_zero_of_lt_one hρ0 hρ1)).const_mul ‖a‖
  exact squeeze_zero_norm (H.norm_le (le_max_left _ _) (le_max_right _ _)) hbound

end Poles

/-- Two numbers on the same side of 1 with a product below 1 do not lie above 1. -/
theorem lt_one_of_mul_lt_one {r s : ℝ} (hprod : r * s < 1) (hside : 0 < (1 - r) * (1 - s)) : r < 1 := by
  by_contra! hr
  have hs : 1 < s := sub_neg.mp (neg_of_mul_pos_right hside (sub_nonpos.mpr hr))
  exact absurd hprod (one_le_mul_of_one_le_of_one_le hr hs.le).not_gt

/-- The stability test for two real poles: `1 - p1 - p2` is `(1 - r) * (1 - s)` and `1 + p1 - p2` is
`(1 + r) * (1 + s)`. -/
theorem stabilityTest_of_real_poles (r s : ℝ) : StabilityTest (r + s) (-(r * s)) ↔ |r| < 1 ∧ |s| < 1 := by
  rw [StabilityTest, abs_neg, abs_mul, abs_lt (a := r + s)]
  constructor
  · rintro ⟨hprod, hlow, hup⟩
    have hprod : r * s < 1 := (le_abs_self _).trans_lt (by rwa [abs_mul])
    have hminus : 0 < (1 - r) * (1 - s) := by linarith
    have hplus : 0 < (1 - -r) * (1 - -s) := by linarith
    rw [abs_lt, abs_lt]
    exact ⟨⟨neg_lt.mp (lt_one_of_mul_lt_one (by rwa [neg_mul_neg]) hplus), lt_one_of_mul_lt_one hprod hminus⟩,
      neg_lt.mp (lt_one_of_mul_lt_one (by rwa [neg_mul_neg, mul_comm]) (by rwa [mul_comm])),
      lt_one_of_mul_lt_one (by rwa [mul_comm]) (by rwa [mul_comm])⟩
  · rintro ⟨hr, hs⟩
    have hprod : |r| * |s| < 1 := mul_lt_one_of_nonneg_of_lt_one_left (abs_nonneg r) hr hs.le
    obtain ⟨hr, hr'⟩ := abs_lt.mp hr
    obtain ⟨hs, hs'⟩ := abs_lt.mp hs
    have hminus : 0 < (1 - r) * (1 - s) := mul_pos (sub_pos.mpr hr') (sub_pos.mpr hs')
    have hplus : 0 < (1 + r) * (1 + s) := mul_pos (by linarith) (by linarith)
    exact ⟨hprod, by linarith, by linarith⟩

/-- The stability test for a pair of conjugate poles. -/
theorem stabilityTest_of_conj_poles (z : ℂ) : StabilityTest (2 * z.re) (-Complex.normSq z) ↔ ‖z‖ < 1 := by
  rw [StabilityTest, abs_neg, abs_of_nonneg (Complex.normSq_nonneg z), Complex.normSq_eq_norm_sq,
    sq_lt_one_iff₀ (norm_nonneg z), and_iff_left_iff_imp, abs_mul, abs_two]
  intro hz
  have hre : |z.re| ≤ ‖z‖ := Complex.abs_re_le_norm z
  nlinarith

/-- The two-pole recurrence has two poles, which lie inside the unit circle exactly when the test passes: two real
ones, or a conjugate pair, by the sign of the discriminant. -/
theorem exists_poles (p1 p2 : ℝ) : ∃ r s : ℂ, r + s = p1 ∧ r * s = -p2 ∧
    (StabilityTest p1 p2 ↔ ‖r‖ < 1 ∧ ‖s‖ < 1) := by
  obtain hd | hd := le_total 0 (p1 ^ 2 + 4 * p2)
  · obtain ⟨r, s, hsum, hprod⟩ : ∃ r s : ℝ, r + s = p1 ∧ r * s = -p2 := by
      refine ⟨(p1 + √(p1 ^ 2 + 4 * p2)) / 2, (p1 - √(p1 ^ 2 + 4 * p2)) / 2, by ring, ?_⟩
      linear_combination -(1 / 4) * Real.sq_sqrt hd
    refine ⟨r, s, by exact_mod_cast hsum, by exact_mod_cast hprod, ?_⟩
    rw [Complex.norm_real, Complex.norm_real, Real.norm_eq_abs, Real.norm_eq_abs, ← stabilityTest_of_real_poles,
      hsum, hprod, neg_neg]
  · obtain ⟨z, hsum, hprod⟩ : ∃ z : ℂ, 2 * z.re = p1 ∧ Complex.normSq z = -p2 := by
      refine ⟨⟨p1 / 2, √(-(p1 ^ 2 + 4 * p2)) / 2⟩, by ring, ?_⟩
      rw [Complex.normSq_mk]
      linear_combination (1 / 4) * Real.sq_sqrt (neg_nonneg.mpr hd)
    refine ⟨z, (starRingEnd ℂ) z, ?_, ?_, ?_⟩
    · rw [Complex.add_conj, hsum]
    · rw [Complex.mul_conj, hprod, Complex.ofReal_neg]
    · rw [RCLike.norm_conj, and_self, ← stabilityTest_of_conj_poles, hsum, hprod, neg_neg]

/-- The impulse response of a tuple is the response of its two poles. -/
theorem twoPoleResponse_impulseResponse {k : Coeffs ℝ} {r s : ℂ} (hsum : r + s = k.p1 real)
    (hprod : r * s = -k.p2 real) : TwoPoleResponse r s k.ff fun n => (impulseResponse k n : ℂ) where
  zero := by rw [impulseResponse_zero]
  one := by rw [impulseResponse_one, hsum, Complex.ofReal_mul]
  step n := by
    rw [impulseResponse_add_two, hsum, hprod]
    push_cast
    ring

/-- Settles O18: the response tends to zero exactly when the poles of the recurrence lie inside the unit circle. -/
theorem impulseResponseDecaysExactlyByTheTest : Obligations.ImpulseResponseDecaysExactlyByTheTest := by
  intro k hff
  obtain ⟨r, s, hsum, hprod, htest⟩ := exists_poles (k.p1 real) (k.p2 real)
  rw [htest, ← (twoPoleResponse_impulseResponse hsum hprod).tendsto_iff (Complex.ofReal_ne_zero.mpr hff),
    ← Complex.ofReal_zero, tendsto_ofReal_iff]

end Sys2Proof.Machine

/-! ### Designer commands and setters, on every build (41_filter_designer.md R100, R101, R116) -/

namespace Sys2Proof.Machine

section DesignerCommands

variable {B : Build} {sh : Shape} {fs f q g pot : NUM} {b : Band} {s t : State}

/-- The designer command of a filter type (30_encoding.md R65). -/
def designerOf : Shape → NUM → NUM → NUM → NUM → Instr
  | .lowShelf => .fdLsh
  | .peaking => .fdPeak
  | .highShelf => .fdHsh

@[simp] theorem execOn_designerOf : execOn B (designerOf sh fs f q g) s = answerDesign B sh fs f q g s := by
  cases sh <;> rfl

/-- The three designer commands are those of the three filter types. -/
theorem exists_designerOf {i : Instr} (hi : i = .fdLsh fs f q g ∨ i = .fdPeak fs f q g ∨ i = .fdHsh fs f q g) :
    ∃ sh, i = designerOf sh fs f q g := by
  obtain rfl | rfl | rfl := hi
  · exact ⟨.lowShelf, rfl⟩
  · exact ⟨.peaking, rfl⟩
  · exact ⟨.highShelf, rfl⟩

/-- Where the sample rate is positive, a designer command is answered with the five quotients by `a0`, and touches no
register. -/
theorem execOn_designerOf_answers (sh : Shape) (f q g : NUM) (s : State) (hfs : PositiveRate B.num fs) :
    ∃ t, execOn B (designerOf sh fs f q g) s = .next t ∧ t.regs = s.regs ∧
      CtrlAnswered s t
        (normalise B.num (rawCoeffs B.num sh (sharedTerms B.num B.clamps fs f q g))).toList := by
  refine ⟨_, ?_, State.finishCtrl_regs .., ctrlAnswered_finishCtrl ..⟩
  rw [execOn_designerOf, answerDesign, design_eq_some hfs]

theorem answerDesign_eq_refused :
    answerDesign B sh fs f q g s = .refused .nonpositiveSampleRate ↔ rateBad B.num fs = true := by
  obtain ⟨hbad, e⟩ | ⟨hfs, k, -, e⟩ := answerDesign_cases B sh fs f q g s
  · exact iff_of_true e hbad
  · refine iff_of_false (fun h => ?_) (Bool.eq_false_iff.mp hfs)
    cases e.symm.trans h

theorem answerDesign_eq_next : answerDesign B sh fs f q g s = .next t ↔
    ∃ k, design B.num B.clamps sh fs f q g = some k ∧ t = s.finishCtrl s.regs k.toList := by
  cases hk : design B.num B.clamps sh fs f q g <;> simp [answerDesign, hk, eq_comm]

theorem installBand_eq_next : installBand B b pot s = .next t ↔
    ∃ fs k, s.regs.rate = some fs ∧ designBand B.num B.clamps b fs pot = some k ∧
      t = s.finishCtrl (s.regs.setCoef b k) [] := by
  cases hr : s.regs.rate with
  | none => simp [installBand, hr]
  | some fs => cases hk : designBand B.num B.clamps b fs pot <;> simp [installBand, hr, hk, eq_comm]

/-- Of two tuples written to a section the second stays. -/
@[simp] theorem Regs.setCoef_setCoef {α : Type} (r : Regs α) (b : Band) (k k' : Coeffs α) :
    (r.setCoef b k).setCoef b k' = r.setCoef b k' := by
  cases b <;> rfl

end DesignerCommands

/-- Settles O25: the check of the sample rate is the only thing a designer command can fail on. -/
theorem designerRefusesNonpositiveRate : Obligations.DesignerRefusesNonpositiveRate :=
  onEveryBuild fun _ _ _ _ _ _ => ⟨answerDesign_eq_refused, answerDesign_eq_refused, answerDesign_eq_refused⟩

/-- Settles O26: the design is a function of the operands; a setter writes no FS, so the second run finds the same rate
and designs the same tuple. -/
theorem designerIsPureAndSettersIdempotent : Obligations.DesignerIsPureAndSettersIdempotent := by
  refine onEveryBuild fun B => ⟨fun fs f q g s s' i hi t t' ht ht' => ?_, fun b pot s t u ht hu => ?_⟩
  · obtain ⟨sh, rfl⟩ := exists_designerOf hi
    rw [execOn_designerOf, answerDesign_eq_next] at ht ht'
    obtain ⟨k, hk, rfl⟩ := ht
    obtain ⟨k', hk', rfl⟩ := ht'
    obtain rfl : k = k' := Option.some.inj (hk.symm.trans hk')
    simp
  · rw [execOn_setterOf, installBand_eq_next] at ht hu
    obtain ⟨fs, k, hr, hk, rfl⟩ := ht
    obtain ⟨fs', k', hr', hk', rfl⟩ := hu
    have hrate : some fs = some fs' := by simpa [hr] using hr'
    obtain rfl : fs = fs' := Option.some.inj hrate
    obtain rfl : k = k' := Option.some.inj (hk.symm.trans hk')
    simp

end Sys2Proof.Machine

/-! ### The clamps in exact arithmetic (41_filter_designer.md R102) -/

namespace Sys2Proof.Machine

/-- A design depends on the frequency and on `Q` through their clamped values alone. -/
theorem design_congr_clamps {α : Type} {N : Numerics α} {P : ClampParams} {fs f f' q q' : α} (sh : Shape) (g : α)
    (hf : clampF N P fs f' = clampF N P fs f) (hq : clampQ N P q' = clampQ N P q) :
    design N P sh fs f' q' g = design N P sh fs f q g := by
  simp only [design, sharedTerms, hf, hq]

section Exact

variable (U : Units) (P : ClampParams) {fs f q : NUM}

theorem clampQ_exact (q : NUM) : clampQ (exactNum U) P q = max q P.qFloor := by
  rw [clampQ, maxN_exact, exact_lit]

theorem clampF_exact (fs f : NUM) : clampF (exactNum U) P fs f = min (max f 0) (P.nyqFrac * (fs / 2)) := by
  rw [clampF, minN_exact, maxN_exact, exact_mul, exact_lit, exact_lit, exact_lit, exact_div U fs two_ne_zero, fFloor]

theorem clampQ_exact_of_le (h : P.qFloor ≤ q) : clampQ (exactNum U) P q = q := by
  rw [clampQ_exact, max_eq_left h]

theorem clampF_exact_of_mem (h0 : 0 ≤ f) (h1 : f ≤ P.nyqFrac * (fs / 2)) : clampF (exactNum U) P fs f = f := by
  rw [clampF_exact, max_eq_left h0, min_eq_left h1]

theorem clampQ_exact_idem (q : NUM) : clampQ (exactNum U) P (clampQ (exactNum U) P q) = clampQ (exactNum U) P q := by
  simp only [clampQ_exact, max_assoc, max_self]

/-- Clamping twice is clamping once, whether or not the ceiling lies above 0. -/
theorem clampF_exact_idem (fs f : NUM) :
    clampF (exactNum U) P fs (clampF (exactNum U) P fs f) = clampF (exactNum U) P fs f := by
  simp only [clampF_exact]
  rcases le_total 0 (P.nyqFrac * (fs / 2)) with h | h
  · rw [max_eq_left (le_min (le_max_right f 0) h), min_assoc, min_self]
  · rw [min_eq_right (h.trans (le_max_right f 0)), max_eq_right h, min_eq_right h]

end Exact

/-- The frequencies of the three bands are not negative, and the highest is that of the treble band
(10_state.md R26). -/
theorem bandF0_mem (b : Band) : 0 ≤ bandF0 b ∧ bandF0 b ≤ 4000 := by
  cases b <;> norm_num [bandF0]

/-- No band's `Q` is below the default floor (10_state.md R26). -/
theorem default_qFloor_le_bandQ (b : Band) : ClampParams.default.qFloor ≤ bandQ b := by
  cases b <;> norm_num [bandQ, ClampParams.default_qFloor]

/-- Settles O27: each clamp is a `min` or a `max` and idempotent; the bands' frequencies stay below `9/10 * (fs/2)` from
`fs = 80000/9` on. -/
theorem designerClampsItsOperands : Obligations.DesignerClampsItsOperands := by
  refine fun U => ⟨fun P fs f q => ⟨clampQ_exact U P q, clampF_exact U P fs f, clampQ_exact_of_le U P,
    clampF_exact_of_mem U P⟩, fun P sh fs f q g => ?_, fun b fs hfs => ⟨?_, ?_⟩⟩
  · exact (design_congr_clamps sh g (clampF_exact_idem U P fs f) (clampQ_exact_idem U P q)).symm
  · obtain ⟨h0, hle⟩ := bandF0_mem b
    refine clampF_exact_of_mem U _ h0 ?_
    rw [ClampParams.default_nyqFrac]
    linarith
  · exact clampQ_exact_of_le U _ (default_qFloor_le_bandQ b)

end Sys2Proof.Machine

/-! ### The designer in REAL, in ordinary arithmetic (41_filter_designer.md R102 to R110) -/

namespace Sys2Proof.Machine

section RealFormulas

variable {P : ClampParams} {fs : ℝ}

/-- A positive rate is one the record of the reals accepts. -/
theorem positiveRate_real (hfs : 0 < fs) : PositiveRate real fs :=
  Bool.eq_false_iff.mpr ((rateBad_real fs).not.mpr hfs.not_ge)

/-- What a designer operation returns in REAL. -/
theorem design_real (sh : Shape) (f q g : ℝ) (hfs : 0 < fs) :
    design real P sh fs f q g = some (normalise real (rawCoeffs real sh (sharedTerms real P fs f q g))) :=
  design_eq_some (positiveRate_real hfs)

theorem clampF_real (P : ClampParams) (fs f : ℝ) :
    clampF real P fs f = min (max f 0) (P.nyqFrac * (fs / 2)) := by
  simp [clampF, fFloor]

theorem clampQ_real (P : ClampParams) (q : ℝ) : clampQ real P q = max q P.qFloor := by
  rw [clampQ, maxN_real, real_lit]

theorem omega0_real (fs fc : ℝ) : omega0 real fs fc = 2 * Real.pi * fc / fs := by
  simp [omega0]

theorem amplitude_real (g : ℝ) : amplitude real g = (10 : ℝ) ^ (g / 40) := by
  simp [amplitude]

theorem bandwidth_real (w0 qc : ℝ) : bandwidth real w0 qc = Real.sin w0 / (2 * qc) := by
  simp [bandwidth]

theorem rawLowShelf_real (t : SharedTerms ℝ) : rawLowShelf real t =
    { b0 := t.amp * ((t.amp + 1) - (t.amp - 1) * t.cosw0 + 2 * √t.amp * t.alpha)
      b1 := 2 * t.amp * ((t.amp - 1) - (t.amp + 1) * t.cosw0)
      b2 := t.amp * ((t.amp + 1) - (t.amp - 1) * t.cosw0 - 2 * √t.amp * t.alpha)
      a0 := (t.amp + 1) + (t.amp - 1) * t.cosw0 + 2 * √t.amp * t.alpha
      a1 := -2 * ((t.amp - 1) + (t.amp + 1) * t.cosw0)
      a2 := (t.amp + 1) + (t.amp - 1) * t.cosw0 - 2 * √t.amp * t.alpha } := by
  simp [rawLowShelf, shelfTerm, ampUp, ampDown]

theorem rawHighShelf_real (t : SharedTerms ℝ) : rawHighShelf real t =
    { b0 := t.amp * ((t.amp + 1) + (t.amp - 1) * t.cosw0 + 2 * √t.amp * t.alpha)
      b1 := -2 * t.amp * ((t.amp - 1) + (t.amp + 1) * t.cosw0)
      b2 := t.amp * ((t.amp + 1) + (t.amp - 1) * t.cosw0 - 2 * √t.amp * t.alpha)
      a0 := (t.amp + 1) - (t.amp - 1) * t.cosw0 + 2 * √t.amp * t.alpha
      a1 := 2 * ((t.amp - 1) - (t.amp + 1) * t.cosw0)
      a2 := (t.amp + 1) - (t.amp - 1) * t.cosw0 - 2 * √t.amp * t.alpha } := by
  simp [rawHighShelf, shelfTerm, ampUp, ampDown]

theorem rawPeaking_real (t : SharedTerms ℝ) : rawPeaking real t =
    { b0 := 1 + t.alpha * t.amp
      b1 := -2 * t.cosw0
      b2 := 1 - t.alpha * t.amp
      a0 := 1 + t.alpha / t.amp
      a1 := -2 * t.cosw0
      a2 := 1 - t.alpha / t.amp } := by
  simp [rawPeaking]

/-- The shared terms as the source writes them. -/
theorem sharedTerms_real (P : ClampParams) (fs f q g : ℝ) : sharedTerms real P fs f q g =
    { amp := (10 : ℝ) ^ (g / 40)
      alpha := Real.sin (2 * Real.pi * min (max f 0) (P.nyqFrac * (fs / 2)) / fs) / (2 * max q P.qFloor)
      cosw0 := Real.cos (2 * Real.pi * min (max f 0) (P.nyqFrac * (fs / 2)) / fs) } := by
  simp only [sharedTerms, amplitude_real, bandwidth_real, omega0_real, clampF_real, clampQ_real, real_cos]

end RealFormulas

/-- Settles O22: the command answers the quotients of the raw low shelf, whose formulas over REAL are the source's. -/
theorem fdLshReturnsTheLowShelf : Obligations.FdLshReturnsTheLowShelf := by
  refine ⟨onEveryBuild fun B fs f q g s hfs => execOn_designerOf_answers .lowShelf f q g s hfs,
    fun P fs f q g hfs => ?_⟩
  rw [design_real _ _ _ _ hfs, sharedTerms_real, rawCoeffs, rawLowShelf_real]
  rfl

/-- Settles O23: the command answers the quotients of the raw high shelf, whose formulas over REAL are the source's. -/
theorem fdHshReturnsTheHighShelf : Obligations.FdHshReturnsTheHighShelf := by
  refine ⟨onEveryBuild fun B fs f q g s hfs => execOn_designerOf_answers .highShelf f q g s hfs,
    fun P fs f q g hfs => ?_⟩
  rw [design_real _ _ _ _ hfs, sharedTerms_real, rawCoeffs, rawHighShelf_real]
  rfl

/-- Settles O24: the command answers the quotients of the raw bell, whose formulas over REAL are the source's; `b1` and
`a1` of the bell are one formula. -/
theorem fdPeakReturnsTheBell : Obligations.FdPeakReturnsTheBell := by
  refine ⟨onEveryBuild fun B fs f q g s hfs => execOn_designerOf_answers .peaking f q g s hfs,
    fun P fs f q g hfs => ?_, fun α N P fs f q g k hk => ?_⟩
  · rw [design_real _ _ _ _ hfs, sharedTerms_real, rawCoeffs, rawPeaking_real]
    rfl
  · have hfs : rateBad N fs = false := by
      rw [← Bool.not_eq_true, ← design_eq_none.not, hk]
      exact Option.some_ne_none k
    cases (design_eq_some hfs).symm.trans hk
    rfl

end Sys2Proof.Machine

/-! ### The ranges of the shared terms and of `a0`, in REAL (41_filter_designer.md R103 to R106, R113, R115) -/

namespace Sys2Proof.Machine

section Ranges

variable {P : ClampParams} {fs : ℝ}

theorem amplitude_real_pos (g : ℝ) : 0 < amplitude real g := by
  rw [amplitude_real]
  positivity

theorem amplitude_real_neg (g : ℝ) : amplitude real (-g) = 1 / amplitude real g := by
  rw [amplitude_real, amplitude_real, neg_div, Real.rpow_neg (by norm_num), one_div]

theorem nyqFrac_mul_pi_lt_pi (P : ClampParams) : (P.nyqFrac : ℝ) * Real.pi < Real.pi :=
  mul_lt_of_lt_one_left Real.pi_pos (by exact_mod_cast P.nyqFrac_lt_one)

theorem clampQ_real_pos (P : ClampParams) (q : ℝ) : 0 < clampQ real P q := by
  rw [clampQ_real]
  exact lt_max_of_lt_right (Rat.cast_pos.mpr P.qFloor_pos)

/-- The clamped frequency keeps `w0` between 0 and the fraction of pi (41_filter_designer.md R104). -/
theorem omega0_real_mem (f : ℝ) (hfs : 0 < fs) :
    0 ≤ omega0 real fs (clampF real P fs f) ∧ omega0 real fs (clampF real P fs f) ≤ P.nyqFrac * Real.pi := by
  have h0 : 0 ≤ clampF real P fs f := (clampF_real_mem f hfs).1
  have hle : clampF real P fs f ≤ P.nyqFrac * (fs / 2) := by
    rw [clampF_real]
    exact min_le_right _ _
  rw [omega0_real]
  refine ⟨by positivity, (div_le_iff₀ hfs).mpr ?_⟩
  calc 2 * Real.pi * clampF real P fs f ≤ 2 * Real.pi * (P.nyqFrac * (fs / 2)) := by gcongr
    _ = P.nyqFrac * Real.pi * fs := by ring

/-- Below pi the sine vanishes at 0 alone (41_filter_designer.md R105). -/
theorem sharedTerms_real_alpha_eq_zero (f q g : ℝ) (hfs : 0 < fs) :
    (sharedTerms real P fs f q g).alpha = 0 ↔ omega0 real fs (clampF real P fs f) = 0 := by
  obtain ⟨h0, hle⟩ := omega0_real_mem (P := P) f hfs
  have hpos : 0 < 2 * clampQ real P q := mul_pos two_pos (clampQ_real_pos P q)
  have hpi := Real.pi_pos
  simp only [sharedTerms, bandwidth_real]
  rw [div_eq_zero_iff, or_iff_left hpos.ne',
    Real.sin_eq_zero_iff_of_lt_of_lt (by linarith) (hle.trans_lt (nyqFrac_mul_pi_lt_pi P))]

/-- `(A + 1) + (A - 1) c` lies between `2` and `2 A` for `c` between -1 and 1 (41_filter_designer.md R113). -/
theorem two_mul_min_le {A c : ℝ} (hc : |c| ≤ 1) : 2 * min A 1 ≤ (A + 1) + (A - 1) * c := by
  obtain ⟨hlo, hhi⟩ := abs_le.mp hc
  rcases le_total A 1 with hA | hA
  · rw [min_eq_left hA]
    nlinarith
  · rw [min_eq_right hA]
    nlinarith

/-- The `a0` of both shelves is at least `2 min(A, 1)` where `alpha` is not negative (41_filter_designer.md R113). -/
theorem two_mul_min_le_a0 {t : SharedTerms ℝ} (ha : 0 ≤ t.alpha) (hc : |t.cosw0| ≤ 1) :
    2 * min t.amp 1 ≤ (rawLowShelf real t).a0 ∧ 2 * min t.amp 1 ≤ (rawHighShelf real t).a0 := by
  have hs : 0 ≤ 2 * √t.amp * t.alpha := by positivity
  have hlow := two_mul_min_le (A := t.amp) hc
  have hhigh := two_mul_min_le (A := t.amp) (c := -t.cosw0) (by rwa [abs_neg])
  rw [rawLowShelf_real, rawHighShelf_real]
  exact ⟨by linarith, by linarith⟩

/-- The `a0` of the bell is at least 1 where `alpha` is not negative (41_filter_designer.md R113). -/
theorem one_le_rawPeaking_a0 {t : SharedTerms ℝ} (hA : 0 < t.amp) (ha : 0 ≤ t.alpha) :
    1 ≤ (rawPeaking real t).a0 := by
  rw [rawPeaking_real]
  exact le_add_of_nonneg_right (by positivity)

/-! #### The effective multipliers of a normalised tuple (40_biquad_section.md R84, 41_filter_designer.md R110) -/

theorem normalise_real_p1 (r : RawCoeffs ℝ) : (normalise real r).p1 real = (r.b1 - r.a1) / r.a0 := by
  simp [Coeffs.p1, normalise, sub_div]

theorem normalise_real_p2 (r : RawCoeffs ℝ) : (normalise real r).p2 real = (r.b2 - r.a2) / r.a0 := by
  simp [Coeffs.p2, normalise, sub_div]

theorem rawLowShelf_real_feedback (t : SharedTerms ℝ) :
    (rawLowShelf real t).b1 - (rawLowShelf real t).a1 = 2 * (t.amp ^ 2 - 1) * (1 - t.cosw0) ∧
    (rawLowShelf real t).b2 - (rawLowShelf real t).a2 =
      (t.amp - 1) * ((t.amp + 1) * (1 - t.cosw0) - 2 * √t.amp * t.alpha) := by
  rw [rawLowShelf_real]
  exact ⟨by ring, by ring⟩

theorem rawHighShelf_real_feedback (t : SharedTerms ℝ) :
    (rawHighShelf real t).b1 - (rawHighShelf real t).a1 = -2 * (t.amp ^ 2 - 1) * (1 + t.cosw0) ∧
    (rawHighShelf real t).b2 - (rawHighShelf real t).a2 =
      (t.amp - 1) * ((t.amp + 1) * (1 + t.cosw0) - 2 * √t.amp * t.alpha) := by
  rw [rawHighShelf_real]
  exact ⟨by ring, by ring⟩

theorem normalise_rawPeaking_p1 (t : SharedTerms ℝ) : (normalise real (rawPeaking real t)).p1 real = 0 := by
  rw [normalise_real_p1, rawPeaking_real, sub_self, zero_div]

theorem normalise_rawPeaking_p2 {t : SharedTerms ℝ} (hA : 0 < t.amp) (ha : 0 ≤ t.alpha) :
    (normalise real (rawPeaking real t)).p2 real = t.alpha * (1 - t.amp ^ 2) / (t.amp + t.alpha) := by
  have hsum : t.amp + t.alpha ≠ 0 := (add_pos_of_pos_of_nonneg hA ha).ne'
  rw [normalise_real_p2, rawPeaking_real]
  field_simp
  ring

end Ranges

/-- Settles O28: the amplitude is a power of ten, `w0` stays below pi, and there the sine is not negative. -/
theorem sharedTermsStayInRange : Obligations.SharedTermsStayInRange := by
  refine ⟨fun g => ⟨amplitude_real g, amplitude_real_pos g, amplitude_real_neg g⟩, amplitude_real_zero,
    fun P fs f q g hfs => ?_⟩
  obtain ⟨h0, hle⟩ := omega0_real_mem (P := P) f hfs
  exact ⟨omega0_real fs _, h0, hle, nyqFrac_mul_pi_lt_pi P, rfl, rfl, bandwidth_real _ _,
    sharedTerms_real_alpha_nonneg f q g hfs, sharedTerms_real_alpha_eq_zero f q g hfs⟩

/-- Settles O29: each divisor has a positive lower bound, since `alpha` is not negative and the cosine lies between -1
and 1. -/
theorem designerNeverDividesByZeroInReal : Obligations.DesignerNeverDividesByZeroInReal := by
  intro P fs f q g hfs t
  have hA : 0 < t.amp := amplitude_real_pos g
  have ha : 0 ≤ t.alpha := sharedTerms_real_alpha_nonneg f q g hfs
  have hfloor : (0 : ℝ) < P.qFloor := Rat.cast_pos.mpr P.qFloor_pos
  have hQ : (P.qFloor : ℝ) ≤ clampQ real P q := by
    rw [clampQ_real]
    exact le_max_right _ _
  obtain ⟨hlow, hhigh⟩ := two_mul_min_le_a0 ha (Real.abs_cos_le_one _)
  exact ⟨⟨by linarith, by linarith⟩, hA, lt_min hA one_pos, hlow, hhigh, one_le_rawPeaking_a0 hA ha,
    fun sh => ⟨_, design_real sh f q g hfs⟩⟩

/-- Settles O31: the differences of the raw pairs over `a0`. -/
theorem closedFormsOfTheFeedback : Obligations.ClosedFormsOfTheFeedback := by
  intro P fs f q g hfs t A c s
  obtain ⟨hlow1, hlow2⟩ := rawLowShelf_real_feedback t
  obtain ⟨hhigh1, hhigh2⟩ := rawHighShelf_real_feedback t
  refine ⟨⟨_, design_real _ f q g hfs, ?_, ?_⟩, ⟨_, design_real _ f q g hfs, ?_, ?_⟩,
    ⟨_, design_real _ f q g hfs, normalise_rawPeaking_p1 t, normalise_rawPeaking_p2 (amplitude_real_pos g)
      (sharedTerms_real_alpha_nonneg f q g hfs)⟩⟩
  · rw [normalise_real_p1, rawCoeffs, hlow1]
  · rw [normalise_real_p2, rawCoeffs, hlow2]
  · rw [normalise_real_p1, rawCoeffs, hhigh1]
  · rw [normalise_real_p2, rawCoeffs, hhigh2]

/-- At `alpha = 0` and `cos(w0) = 1` the low shelf is an identity whatever the amplitude is
(41_filter_designer.md R107). -/
theorem normalise_rawLowShelf_at_zero {t : SharedTerms ℝ} (hA : t.amp ≠ 0) (ha : t.alpha = 0) (hc : t.cosw0 = 1) :
    normalise real (rawLowShelf real t) = { ff := 1, c1 := -2, c2 := 1, d1 := -2, d2 := 1 } := by
  have hraw : rawLowShelf real t =
      { b0 := 2 * t.amp, b1 := -4 * t.amp, b2 := 2 * t.amp, a0 := 2 * t.amp, a1 := -4 * t.amp, a2 := 2 * t.amp } := by
    rw [rawLowShelf_real, ha, hc]
    congr 1 <;> ring
  simp only [hraw, normalise, real_div, mul_div_mul_right _ _ hA]
  norm_num

/-- Settles O32: the clamp raises `f` to 0, where `w0 = 0`. -/
theorem lowShelfAtZeroFrequency : Obligations.LowShelfAtZeroFrequency := by
  intro P fs f q g hfs hf
  have hnyq : (0 : ℝ) ≤ P.nyqFrac * (fs / 2) := by
    have : (0 : ℝ) < P.nyqFrac := Rat.cast_pos.mpr P.nyqFrac_pos
    positivity
  have hw : omega0 real fs (clampF real P fs f) = 0 := by
    rw [clampF_real, max_eq_right hf, min_eq_left hnyq, omega0_real, mul_zero, zero_div]
  have hc : (sharedTerms real P fs f q g).cosw0 = 1 := by simp only [sharedTerms, hw, real_cos, Real.cos_zero]
  rw [design_real _ f q g hfs, rawCoeffs, normalise_rawLowShelf_at_zero (amplitude_real_pos g).ne'
    ((sharedTerms_real_alpha_eq_zero f q g hfs).mpr hw) hc]

end Sys2Proof.Machine

/-! ### Flat at 0 dB (41_filter_designer.md R112, R114, 42_three_band_equalizer.md R147) -/

namespace Sys2Proof.Machine

/-- The tuple of an identity section (40_biquad_section.md R87). -/
structure Coeffs.IsIdentity (k : Coeffs ℝ) : Prop where
  ff : k.ff = 1
  c1 : k.c1 = k.d1
  c2 : k.c2 = k.d2

/-- Every designer operation at 0 dB gives an identity tuple. -/
theorem design_real_zero_isIdentity (P : ClampParams) (sh : Shape) {fs : ℝ} (f q : ℝ) (hfs : 0 < fs) :
    ∃ k, design real P sh fs f q 0 = some k ∧ k.IsIdentity := by
  obtain ⟨-, hflat, -⟩ := identitySectionPassesItsInput
  obtain ⟨k, hk, hff, h1, h2⟩ := hflat P sh fs f q hfs
  exact ⟨k, hk, hff, h1, h2⟩

/-- A control at one half asks for 0 dB (42_three_band_equalizer.md R143). -/
theorem gainDb_real_half (maxDb : ℝ) : gainDb real (1 / 2) maxDb = 0 := by
  norm_num [gainDb, clampPot]

/-- A setter at one half installs an identity tuple. -/
theorem setBand_real_half (P : ClampParams) (b : Band) {fs : ℝ} {r : Regs ℝ} (hfs : 0 < fs) (hr : r.rate = some fs) :
    ∃ k : Coeffs ℝ, k.IsIdentity ∧ setBand real P b (1 / 2) r = some (r.setCoef b k) := by
  obtain ⟨k, hk, hid⟩ := design_real_zero_isIdentity P (bandShape b) (real.lit (bandF0 b)) (real.lit (bandQ b)) hfs
  exact ⟨k, hid, by simp only [setBand, hr, designBand, gainDb_real_half, hk, Option.map_some]⟩

/-- A sample through the cascade writes no coefficients. -/
theorem cascadeRegs_coef {α : Type} (N : Numerics α) (r : Regs α) (x : α) (b : Band) :
    ((cascadeRegs N r x).sec b).coef = (r.sec b).coef := by
  cases b <;> rfl

/-- One sample through three identity sections comes out as it is. -/
theorem cascadeOut_real_identity {r : Regs ℝ} (h : ∀ b, (r.sec b).coef.IsIdentity) (x : ℝ) :
    cascadeOut real r x = x := by
  have hpass : ∀ b y, recurrence real (r.sec b) y = y :=
    fun b => recurrence_real_identity (h b).ff (h b).c1 (h b).c2
  rw [cascadeOut, ← Regs.sec_bass, ← Regs.sec_mid, ← Regs.sec_treble, hpass, hpass, hpass]

/-- A cascade of three identity sections returns its input. -/
theorem cascadeRun_real_identity {r : Regs ℝ} (h : ∀ b, (r.sec b).coef.IsIdentity) (xs : List ℝ) :
    cascadeRun real r xs = xs := by
  induction xs generalizing r with
  | nil => rfl
  | cons x xs ih => rw [cascadeRun, cascadeOut_real_identity h, ih fun b => by rw [cascadeRegs_coef]; exact h b]

/-- The raw coefficients of both shelves at amplitude 1 (41_filter_designer.md R114). -/
theorem rawShelves_real_flat {t : SharedTerms ℝ} (ht : t.amp = 1) :
    rawLowShelf real t = { b0 := 2 + 2 * t.alpha, b1 := -4 * t.cosw0, b2 := 2 - 2 * t.alpha
                           a0 := 2 + 2 * t.alpha, a1 := -4 * t.cosw0, a2 := 2 - 2 * t.alpha } ∧
    rawHighShelf real t = rawLowShelf real t := by
  rw [rawLowShelf_real, rawHighShelf_real, ht, Real.sqrt_one]
  constructor <;> congr 1 <;> ring

/-- The raw coefficients of the bell at amplitude 1 (41_filter_designer.md R114). -/
theorem rawPeaking_real_flat {t : SharedTerms ℝ} (ht : t.amp = 1) :
    rawPeaking real t = { b0 := 1 + t.alpha, b1 := -2 * t.cosw0, b2 := 1 - t.alpha
                          a0 := 1 + t.alpha, a1 := -2 * t.cosw0, a2 := 1 - t.alpha } := by
  rw [rawPeaking_real, ht, mul_one, div_one]

/-- Settles O30: at amplitude 1 numerator and denominator agree, so each design is an identity tuple, and three setters
at one half leave three identity sections. -/
theorem flatAtZeroDecibels : Obligations.FlatAtZeroDecibels := by
  refine ⟨fun P fs f q _ => ?_, fun P sh fs f q hfs => ?_, fun P fs r hfs hr => ?_⟩
  · intro t
    obtain ⟨hlow, hhigh⟩ := rawShelves_real_flat (t := t) amplitude_real_zero
    rw [hhigh, hlow, rawPeaking_real_flat (t := t) amplitude_real_zero]
    simp
  · obtain ⟨k, hk, hid⟩ := design_real_zero_isIdentity P sh f q hfs
    exact ⟨k, hk, hid.ff, hid.c1, hid.c2⟩
  · obtain ⟨k1, hid1, h1⟩ := setBand_real_half P .bass hfs hr
    obtain ⟨k2, hid2, h2⟩ := setBand_real_half P .mid (r := r.setCoef .bass k1) hfs (by simpa using hr)
    obtain ⟨k3, hid3, h3⟩ := setBand_real_half P .treble (r := (r.setCoef .bass k1).setCoef .mid k2) hfs
      (by simpa using hr)
    refine ⟨_, _, _, h1, h2, h3, cascadeRun_real_identity fun b => ?_⟩
    cases b with
    | bass => exact hid1
    | mid => exact hid2
    | treble => exact hid3

/-- Settles O33: the contract compares the record's design with the one in REAL, which is an identity tuple. -/
theorem accuracyContractBoundsTheFlatDesign : Obligations.AccuracyContractBoundsTheFlatDesign := by
  intro α N val P hN sh fs f q g k hfs hg hk
  obtain ⟨k₀, k', hk₀, hk', hff, hc1, hc2, hd1, hd2⟩ := hN sh fs f q g hfs
  obtain rfl : k₀ = k := Option.some.inj (hk₀.symm.trans hk)
  obtain ⟨k'', hk'', hid⟩ := design_real_zero_isIdentity P sh (val f) (val q) hfs
  rw [hg] at hk'
  obtain rfl : k' = k'' := Option.some.inj (hk'.symm.trans hk'')
  rw [Accurate, hid.ff, abs_one, max_self, mul_one] at hff
  rw [← hid.c1] at hd1
  rw [← hid.c2] at hd2
  exact ⟨k', hk', hff, ⟨hc1, hd1⟩, hc2, hd2⟩

end Sys2Proof.Machine

/-! ### The steps of EQ.INIT and EQ.PROC (42_three_band_equalizer.md R141, R142, 30_encoding.md R70) -/

namespace Sys2Proof.Machine

section Composites

variable {B : Build} {run : Run} {s : State}

/-- A step of CTRL inside an EQ.INIT zeroes the delay pair of the section it has come to, and no other register. -/
theorem stepPort_of_eqInit {rest : EqInitRest} (hb : s.ctrl.busy = some rest) :
    stepPort B run .ctrl s = .next (resumeEqInit B rest s) ∧
      (resumeEqInit B rest s).regs.sec rest.band =
        { s.regs.sec rest.band with z1 := B.num.lit 0, z2 := B.num.lit 0 } ∧
      OnlySection rest.band s.regs (resumeEqInit B rest s).regs := by
  rw [resumeEqInit_regs]
  exact ⟨stepPort_of_ctrl_busy hb, Regs.zero_self .., onlySection_zero ..⟩

/-- A step of AUDIO inside an EQ.PROC feeds the section it has come to, and touches no other register. -/
theorem stepPort_of_eqProc {rest : EqProcRest} (hb : s.audio.busy = some rest) :
    stepPort B run .audio s = .next (resumeEqProc B rest s) ∧
      (resumeEqProc B rest s).regs.sec rest.band = (s.regs.sec rest.band).advance B.num rest.input ∧
      OnlySection rest.band s.regs (resumeEqProc B rest s).regs := by
  rw [resumeEqProc_regs]
  exact ⟨stepPort_of_audio_busy hb, Regs.proc_self .., onlySection_proc ..⟩

end Composites

/-- Settles O36: the first step stores the rate and leaves three resets in the port, which the next three steps of CTRL
run in order, each on what the step before left. -/
theorem eqInitStoresTheRateAndZeroes : Obligations.EqInitStoresTheRateAndZeroes := by
  refine onEveryBuild fun B fs s => ⟨fun hbad => ?_, fun hfs => ?_, rfl, rfl⟩
  · rw [execOn, eqInitOn, if_pos hbad]
  · obtain ⟨hbad, -⟩ | ⟨-, e⟩ := eqInitOn_cases B fs s
    · cases hfs.symm.trans hbad
    · exact ⟨_, _, _, _, ⟨e, rfl, Regs.setFs_sec s.regs fs, ⟨rfl, rfl⟩, rfl, rfl⟩,
        stepPort_of_eqInit (rest := .bass) rfl, stepPort_of_eqInit (rest := .mid) rfl,
        stepPort_of_eqInit (rest := .treble) rfl, ⟨rfl, rfl⟩, rfl, rfl⟩

/-- Settles O37: the first step feeds the bass section and leaves its output in the port, from which the next two steps
of AUDIO feed the mid and the treble section. -/
theorem eqProcRunsTheCascade : Obligations.EqProcRunsTheCascade :=
  onEveryBuild fun B x s =>
    ⟨⟨_, _, _, ⟨rfl, Regs.proc_self B.num s.regs .bass x, onlySection_proc .., ⟨rfl, rfl⟩, rfl, rfl⟩,
      stepPort_of_eqProc (rest := .mid _) rfl, stepPort_of_eqProc (rest := .treble _) rfl,
      ⟨rfl, rfl⟩, rfl, rfl⟩, rfl, rfl⟩

end Sys2Proof.Machine

/-! ### The setters (42_three_band_equalizer.md R144 to R146) -/

namespace Sys2Proof.Machine

section Setters

variable {B : Build} {pot fs : NUM} {s : State}

/-- While FS holds no value a setter is refused. -/
theorem execOn_setterOf_of_unwritten (b : Band) (hr : s.regs.rate = none) :
    execOn B (setterOf b pot) s = .refused .setterBeforeInit := by
  rw [execOn_setterOf, installBand, hr]

/-- At a positive rate a setter installs the design of its band, and nothing else differs. -/
theorem execOn_setterOf_installs (b : Band) (hr : s.regs.rate = some fs) (hfs : PositiveRate B.num fs) :
    ∃ k t, designBand B.num B.clamps b fs pot = some k ∧ execOn B (setterOf b pot) s = .next t ∧
      t.regs.sec b = { s.regs.sec b with coef := k } ∧ OnlySection b s.regs t.regs ∧ CtrlAnswered s t [] := by
  obtain ⟨k, hk⟩ : ∃ k, designBand B.num B.clamps b fs pot = some k := design_positive hfs
  refine ⟨k, _, hk, ?_, Regs.setCoef_self .., onlySection_setCoef .., ctrlAnswered_finishCtrl ..⟩
  rw [execOn_setterOf, installBand_eq_next]
  exact ⟨fs, k, hr, hk, rfl⟩

end Setters

/-- Settles O39: EQ.SETBASS is the setter of the bass band. -/
theorem eqSetBassInstallsTheLowShelf : Obligations.EqSetBassInstallsTheLowShelf :=
  onEveryBuild fun _ _ _ =>
    ⟨execOn_setterOf_of_unwritten .bass, fun _ => execOn_setterOf_installs .bass, rfl, rfl⟩

/-- Settles O40: EQ.SETMID is the setter of the mid band, and a bell has `c1 = d1` in every numeric domain. -/
theorem eqSetMidInstallsTheBell : Obligations.EqSetMidInstallsTheBell := by
  refine onEveryBuild fun B pot s => ⟨execOn_setterOf_of_unwritten .mid, fun fs hr hfs => ?_, rfl, rfl⟩
  obtain ⟨k, t, hk, hinstalled⟩ := execOn_setterOf_installs (pot := pot) .mid hr hfs
  obtain ⟨-, -, hbell⟩ := fdPeakReturnsTheBell
  exact ⟨k, t, hk, hbell _ _ _ _ _ _ _ _ hk, hinstalled⟩

/-- Settles O41: EQ.SETTREB is the setter of the treble band. -/
theorem eqSetTrebInstallsTheHighShelf : Obligations.EqSetTrebInstallsTheHighShelf :=
  onEveryBuild fun _ _ _ =>
    ⟨execOn_setterOf_of_unwritten .treble, fun _ => execOn_setterOf_installs .treble, rfl, rfl⟩

end Sys2Proof.Machine

/-! ### The gain law (42_three_band_equalizer.md R143, R147) -/

namespace Sys2Proof.Machine

section GainLaw

variable {K : Type} [Field K] [LinearOrder K] [IsStrictOrderedRing K] {pot pot' maxDb : K}

/-- The gain law in the ordinary arithmetic of an ordered field. -/
def gainLaw (pot maxDb : K) : K := ((1 / 2 - min (max pot 0) 1) * 2) * maxDb

theorem gainLaw_of_le_zero (h : pot ≤ 0) : gainLaw pot maxDb = maxDb := by
  rw [gainLaw, max_eq_right h, min_eq_left zero_le_one]
  ring

theorem gainLaw_of_one_le (h : 1 ≤ pot) : gainLaw pot maxDb = -maxDb := by
  rw [gainLaw, min_eq_right (h.trans (le_max_left pot 0))]
  ring

/-- Where the clamp does nothing the law is linear. -/
theorem gainLaw_of_mem (h0 : 0 ≤ pot) (h1 : pot ≤ 1) : gainLaw pot maxDb = (1 - 2 * pot) * maxDb := by
  rw [gainLaw, max_eq_left h0, min_eq_left h1]
  ring

theorem gainLaw_half : gainLaw (1 / 2) maxDb = 0 := by
  rw [gainLaw_of_mem (by norm_num) (by norm_num)]
  ring

theorem gainLaw_mem (h : 0 < maxDb) : -maxDb ≤ gainLaw pot maxDb ∧ gainLaw pot maxDb ≤ maxDb := by
  rcases le_total pot 0 with h0 | h0
  · rw [gainLaw_of_le_zero h0]
    exact ⟨by linarith, le_rfl⟩
  · rcases le_total pot 1 with h1 | h1
    · rw [gainLaw_of_mem h0 h1]
      constructor <;> nlinarith
    · rw [gainLaw_of_one_le h1]
      exact ⟨le_rfl, by linarith⟩

theorem gainLaw_lt (h : 0 < maxDb) (h0 : 0 ≤ pot) (hlt : pot < pot') (h1 : pot' ≤ 1) :
    gainLaw pot' maxDb < gainLaw pot maxDb := by
  rw [gainLaw_of_mem h0 (hlt.le.trans h1), gainLaw_of_mem (h0.trans hlt.le) h1]
  gcongr

end GainLaw

theorem gainDb_real (pot maxDb : ℝ) : gainDb real pot maxDb = gainLaw pot maxDb := by
  simp [gainDb, clampPot, gainLaw]

theorem gainDb_exact (U : Units) (pot maxDb : NUM) : gainDb (exactNum U) pot maxDb = gainLaw pot maxDb := by
  simp [gainDb, clampPot, gainLaw]

/-- Settles O38: both records compute one law, whose properties hold in every ordered field. -/
theorem gainLawIsInvertedAndBounded : Obligations.GainLawIsInvertedAndBounded := by
  refine ⟨fun _ _ _ _ => rfl, fun pot maxDb => ?_, fun U pot maxDb => ?_⟩
  · simp only [gainDb_real]
    exact ⟨rfl, gainLaw_mem, gainLaw_of_le_zero, gainLaw_of_one_le, gainLaw_half, fun _ => gainLaw_lt⟩
  · simp only [gainDb_exact]
    exact ⟨rfl, gainLaw_mem, gainLaw_of_le_zero, gainLaw_of_one_le, gainLaw_half, fun _ => gainLaw_lt⟩

end Sys2Proof.Machine

/-! ### The order of the sections (42_three_band_equalizer.md R148, 95_test_vectors.md P5) -/

namespace Sys2Proof.Machine

/-- An undisturbed run of the cascade is the run of each section on the outputs of the one before. -/
theorem cascadeRun_eq_sectionRun {α : Type} (N : Numerics α) (r : Regs α) (xs : List α) :
    cascadeRun N r xs = sectionRun N r.treble (sectionRun N r.mid (sectionRun N r.bass xs)) := by
  induction xs generalizing r with
  | nil => rfl
  | cons x xs ih => rw [cascadeRun, ih]; rfl

section Exchange

/-- `v` is the two-pole answer of the tuple `k` to the input `u`, where its last two outputs were `v1` and `v2`. -/
def Coeffs.Answers (k : Coeffs ℝ) (u v v1 v2 : ℝ) : Prop := v = k.ff * u + k.p1 real * v1 + k.p2 real * v2

/-- A pair of sections in one order, `a` before `b`, and in the other, `b'` before `a'`, with the same tuples and the
same last two outputs of the pair. These two outputs are answers of the later section, in both orders, to what the
earlier one put out; `v3` and `v4` are the outputs before them. -/
structure Exchanged (a b b' a' : BiquadSection ℝ) : Prop where
  coef_a : a'.coef = a.coef
  coef_b : b'.coef = b.coef
  z1 : a'.z1 = b.z1
  z2 : a'.z2 = b.z2
  answers : ∃ v3 v4, b.coef.Answers a.z1 b.z1 b.z2 v3 ∧ b.coef.Answers a.z2 b.z2 v3 v4 ∧
    a.coef.Answers b'.z1 b.z1 b.z2 v3 ∧ a.coef.Answers b'.z2 b.z2 v3 v4

variable {a b b' a' : BiquadSection ℝ}

theorem exchanged_of_rest (k k' : Coeffs ℝ) :
    Exchanged (restingSection real k) (restingSection real k') (restingSection real k') (restingSection real k) :=
  ⟨rfl, rfl, rfl, rfl, 0, 0, by simp [Coeffs.Answers, restingSection]⟩

/-- Both orders of the pair put out the same sample: the products of the two feedbacks commute. -/
theorem Exchanged.recurrence_eq (h : Exchanged a b b' a') (x : ℝ) :
    recurrence real a' (recurrence real b' x) = recurrence real b (recurrence real a x) := by
  obtain ⟨hka, hkb, hz1, hz2, v3, v4, hb1, hb2, ha1, ha2⟩ := h
  simp only [recurrence_real_poles, Coeffs.Answers, hka, hkb, hz1, hz2] at *
  linear_combination a.coef.p1 real * hb1 + a.coef.p2 real * hb2 - b.coef.p1 real * ha1 - b.coef.p2 real * ha2

theorem Exchanged.advance (h : Exchanged a b b' a') (x : ℝ) :
    Exchanged (a.advance real x) (b.advance real (recurrence real a x)) (b'.advance real x)
      (a'.advance real (recurrence real b' x)) := by
  have hy := h.recurrence_eq x
  obtain ⟨hka, hkb, hz1, hz2, v3, v4, hb1, hb2, ha1, ha2⟩ := h
  refine ⟨hka, hkb, hy, hz1, b.z2, v3, recurrence_real_poles b _, hb1, ?_, ha1⟩
  rw [recurrence_real_poles, hka, hz1, hz2] at hy
  exact hy.symm

/-- Both orders of the pair put out the same samples. -/
theorem Exchanged.sectionRun_eq (h : Exchanged a b b' a') (xs : List ℝ) :
    sectionRun real b (sectionRun real a xs) = sectionRun real a' (sectionRun real b' xs) := by
  induction xs generalizing a b b' a' with
  | nil => rfl
  | cons x xs ih => simp only [sectionRun, h.recurrence_eq x, ih (h.advance x)]

end Exchange

/-- Settles O43: exchanging neighbours at rest by `Exchanged`; a section that adds 1 does not commute with one that
doubles; and the two cases of P5 computed. -/
theorem seriesOrderFromRestWithFixedTuples : Obligations.SeriesOrderFromRestWithFixedTuples := by
  refine ⟨fun k1 k2 k3 fs written xs => ?_, ?_, ?_, ?_⟩
  · simp only [cascadeRun_eq_sectionRun]
    exact ⟨congrArg _ ((exchanged_of_rest k1 k2).sectionRun_eq xs), (exchanged_of_rest k2 k3).sectionRun_eq _⟩
  · refine ⟨restingSection real { ff := 2, c1 := 0, c2 := 0, d1 := 0, d2 := 0 },
      { coef := { ff := 1, c1 := 1, c2 := 0, d1 := 0, d2 := 0 }, z1 := 1, z2 := 0 },
      restingSection real { ff := 1, c1 := 0, c2 := 0, d1 := 0, d2 := 0 }, 0, ?_⟩
    norm_num [cascadeOut, recurrence_real, restingSection]
  · norm_num [cascadeOut, cascadeRegs, recurrence_real, restingSection, BiquadSection.advance, Regs.setCoef,
      Regs.setSec, Regs.sec]
  · norm_num [cascadeOut, cascadeRegs, recurrence_real, restingSection, BiquadSection.advance, Regs.setCoef,
      Regs.setSec, Regs.sec]

end Sys2Proof.Machine

/-! ### The worked examples at 48 kHz (42_three_band_equalizer.md R144 to R146)

A reference tuple of rational shared terms stands beside each design. How far the design can be from it is bounded by
following the errors of the terms through the raw coefficients and the division by `a0`; the reference itself is
compared with the figures of the spec in rational arithmetic. -/

namespace Sys2Proof.Machine

section Approximation

/-- `x` is known to within `ε` by a reference `x'`, whose absolute value is at most `M`. -/
structure Approx (ε M x x' : ℝ) : Prop where
  near : |x - x'| ≤ ε
  bound : |x'| ≤ M

variable {ε η M L x x' y y' : ℝ}

/-- The error of a product. -/
theorem Approx.mul (hx : Approx ε M x x') (hy : Approx η L y y') :
    Approx (M * η + ε * L + ε * η) (M * L) (x * y) (x' * y') := by
  obtain ⟨hε, hM⟩ := hx
  obtain ⟨hη, hL⟩ := hy
  have hM0 := (abs_nonneg _).trans hM
  have hε0 := (abs_nonneg _).trans hε
  constructor
  · calc |x * y - x' * y'| = |x' * (y - y') + (x - x') * y' + (x - x') * (y - y')| := by ring_nf
      _ ≤ |x'| * |y - y'| + |x - x'| * |y'| + |x - x'| * |y - y'| := by
        simpa only [abs_mul] using abs_add_three (x' * (y - y')) ((x - x') * y') ((x - x') * (y - y'))
      _ ≤ M * η + ε * L + ε * η := by gcongr
  · rw [abs_mul]
    gcongr

/-- The error of a quotient whose divisor has the reference `y'`, against any figure `q`. -/
theorem abs_div_sub_le {q τ : ℝ} (hx : |x - x'| ≤ ε) (hy : |y - y'| ≤ ε) (hpos : ε < y')
    (hq : |x' - q * y'| + ε * (1 + |q|) ≤ τ * (y' - ε)) (hτ : 0 ≤ τ) : |x / y - q| ≤ τ := by
  have hle : y' - ε ≤ y := by linarith [(abs_le.mp hy).1]
  have hy0 : 0 < y := by linarith
  have hdiv : x / y - q = (x - q * y) / y := by field_simp
  rw [hdiv, abs_div, abs_of_pos hy0, div_le_iff₀ hy0]
  calc |x - q * y| = |(x - x') + (x' - q * y') + q * (y' - y)| := by ring_nf
    _ ≤ |x - x'| + |x' - q * y'| + |q| * |y' - y| := by
      simpa only [abs_mul] using abs_add_three (x - x') (x' - q * y') (q * (y' - y))
    _ ≤ ε + |x' - q * y'| + |q| * ε := by
      rw [abs_sub_comm y']
      gcongr
    _ ≤ τ * (y' - ε) := by linarith
    _ ≤ τ * y := by gcongr

/-- A root is known from its power. -/
theorem abs_sub_le_of_pow {δ : ℝ} {n : ℕ} (hn : n ≠ 0) (hx : 0 ≤ x) (hx' : 0 ≤ x' + δ) (hlo : (x' - δ) ^ n ≤ x ^ n)
    (hhi : x ^ n ≤ (x' + δ) ^ n) : |x - x'| ≤ δ := by
  have h1 : x' - δ ≤ x := le_of_pow_le_pow_left₀ hn hx hlo
  have h2 : x ≤ x' + δ := le_of_pow_le_pow_left₀ hn hx' hhi
  exact abs_sub_le_iff.mpr ⟨by linarith, by linarith⟩

/-- A power of ten with a rational exponent is the root of a power of ten with an integral one. -/
theorem abs_tenPow_sub_le {δ : ℝ} {n : ℕ} {p : ℤ} (hp : y * n = p) (hn : n ≠ 0) (hx' : 0 ≤ x' + δ)
    (hlo : (x' - δ) ^ n ≤ 10 ^ p) (hhi : 10 ^ p ≤ (x' + δ) ^ n) : |(10 : ℝ) ^ y - x'| ≤ δ := by
  have hpow : ((10 : ℝ) ^ y) ^ n = 10 ^ p := by
    rw [← Real.rpow_natCast, ← Real.rpow_mul (by norm_num), hp, Real.rpow_intCast]
  exact abs_sub_le_of_pow hn (by positivity) hx' (hpow ▸ hlo) (hpow ▸ hhi)

/-- The sine near a reference angle, by its Taylor polynomial there. -/
theorem abs_sin_sub_le (hx : |x - x'| ≤ ε) (h1 : |x'| ≤ 1) :
    |Real.sin x - (x' - x' ^ 3 / 6)| ≤ ε + |x'| ^ 5 / 100 :=
  (abs_sub_le _ (Real.sin x') _).trans
    (add_le_add ((Real.abs_sin_sub_sin_le x x').trans hx) (Real.sin_bound h1))

/-- The cosine near a reference angle, by its Taylor polynomial there. -/
theorem abs_cos_sub_le (hx : |x - x'| ≤ ε) (h1 : |x'| ≤ 1) :
    |Real.cos x - (1 - x' ^ 2 / 2)| ≤ ε + |x'| ^ 4 * (5 / 96) :=
  (abs_sub_le _ (Real.cos x') _).trans
    (add_le_add ((Real.abs_cos_sub_cos_le x x').trans hx) (Real.cos_bound h1))

end Approximation

/-! #### Raw coefficients and tuples near a reference -/

/-- Raw coefficients that differ from the reference `r'` by at most `η`. -/
structure RawCoeffs.Near (η : ℝ) (r r' : RawCoeffs ℝ) : Prop where
  b0 : |r.b0 - r'.b0| ≤ η
  b1 : |r.b1 - r'.b1| ≤ η
  b2 : |r.b2 - r'.b2| ≤ η
  a0 : |r.a0 - r'.a0| ≤ η
  a1 : |r.a1 - r'.a1| ≤ η
  a2 : |r.a2 - r'.a2| ≤ η

/-- The tuple is that of a worked example to the tolerance of 41_filter_designer.md R112. -/
def Coeffs.Near (k k' : Coeffs ℝ) : Prop :=
  |k.ff - k'.ff| ≤ 1 / 10000 ∧ |k.c1 - k'.c1| ≤ 1 / 10000 ∧ |k.c2 - k'.c2| ≤ 1 / 10000 ∧
    |k.d1 - k'.d1| ≤ 1 / 10000 ∧ |k.d2 - k'.d2| ≤ 1 / 10000

/-- The raw coefficient `b` over `a0` is the figure `q` to the tolerance, with room for an error `η` in both. -/
def FitsFigure (η a0 b q : ℝ) : Prop := |b - q * a0| + η * (1 + |q|) ≤ 1 / 10000 * (a0 - η)

/-- Each of the five quotients has that room. -/
def RawCoeffs.Fits (η : ℝ) (r : RawCoeffs ℝ) (k : Coeffs ℝ) : Prop :=
  η < r.a0 ∧ FitsFigure η r.a0 r.b0 k.ff ∧ FitsFigure η r.a0 r.b1 k.c1 ∧ FitsFigure η r.a0 r.b2 k.c2 ∧
    FitsFigure η r.a0 r.a1 k.d1 ∧ FitsFigure η r.a0 r.a2 k.d2

theorem RawCoeffs.Near.normalise {η : ℝ} {r r' : RawCoeffs ℝ} {k : Coeffs ℝ} (h : r.Near η r') (hk : r'.Fits η k) :
    (normalise real r).Near k := by
  obtain ⟨ha0, hff, hc1, hc2, hd1, hd2⟩ := hk
  exact ⟨abs_div_sub_le h.b0 h.a0 ha0 hff (by norm_num), abs_div_sub_le h.b1 h.a0 ha0 hc1 (by norm_num),
    abs_div_sub_le h.b2 h.a0 ha0 hc2 (by norm_num), abs_div_sub_le h.a1 h.a0 ha0 hd1 (by norm_num),
    abs_div_sub_le h.a2 h.a0 ha0 hd2 (by norm_num)⟩

/-! #### The shelves and the bell near a reference -/

/-- The low shelf of amplitude `r ^ 2`, which has no root in it. -/
theorem rawLowShelf_real_sq {r : ℝ} (a c : ℝ) (hr : 0 ≤ r) :
    rawLowShelf real { amp := r ^ 2, alpha := a, cosw0 := c } =
      { b0 := r ^ 2 * ((r ^ 2 + 1) - (r ^ 2 - 1) * c + 2 * r * a)
        b1 := 2 * r ^ 2 * ((r ^ 2 - 1) - (r ^ 2 + 1) * c)
        b2 := r ^ 2 * ((r ^ 2 + 1) - (r ^ 2 - 1) * c - 2 * r * a)
        a0 := (r ^ 2 + 1) + (r ^ 2 - 1) * c + 2 * r * a
        a1 := -2 * ((r ^ 2 - 1) + (r ^ 2 + 1) * c)
        a2 := (r ^ 2 + 1) + (r ^ 2 - 1) * c - 2 * r * a } := by
  rw [rawLowShelf_real, Real.sqrt_sq hr]

/-- The raw coefficients with the two odd ones negated. -/
def RawCoeffs.mirror (r : RawCoeffs ℝ) : RawCoeffs ℝ := { r with b1 := -r.b1, a1 := -r.a1 }

/-- The high shelf is the mirror image of the low shelf at the angle `π - w0`. -/
theorem rawHighShelf_real_eq_mirror (t : SharedTerms ℝ) :
    rawHighShelf real t = (rawLowShelf real { t with cosw0 := -t.cosw0 }).mirror := by
  rw [rawHighShelf_real, rawLowShelf_real, RawCoeffs.mirror]
  congr 1 <;> ring

theorem RawCoeffs.Near.mirror {η : ℝ} {r r' : RawCoeffs ℝ} (h : r.Near η r') : r.mirror.Near η r'.mirror where
  b0 := h.b0
  b1 := by simpa [RawCoeffs.mirror, neg_add_eq_sub, abs_sub_comm] using h.b1
  b2 := h.b2
  a0 := h.a0
  a1 := by simpa [RawCoeffs.mirror, neg_add_eq_sub, abs_sub_comm] using h.a1
  a2 := h.a2

/-- Seven digits of the shared terms are five digits of the low shelf, whose raw coefficients are sums of seven
products. -/
theorem rawLowShelf_near {r r' a a' c c' : ℝ} (hr : Approx (1 / 10 ^ 7) (8 / 5) r r')
    (ha : Approx (1 / 10 ^ 7) (1 / 2) a a') (hc : Approx (1 / 10 ^ 7) 1 c c') (hr0 : 0 ≤ r) (hr0' : 0 ≤ r') :
    (rawLowShelf real { amp := r ^ 2, alpha := a, cosw0 := c }).Near (1 / 10 ^ 5)
      (rawLowShelf real { amp := r' ^ 2, alpha := a', cosw0 := c' }) := by
  have hA := hr.mul hr
  have hAA := hA.mul hA
  have hra := hr.mul ha
  have nearC := abs_le.mp hc.near
  have nearA := abs_le.mp hA.near
  have nearAA := abs_le.mp hAA.near
  have nearAC := abs_le.mp (hA.mul hc).near
  have nearAAC := abs_le.mp (hAA.mul hc).near
  have nearRa := abs_le.mp hra.near
  have nearARa := abs_le.mp (hA.mul hra).near
  rw [rawLowShelf_real_sq a c hr0, rawLowShelf_real_sq a' c' hr0']
  constructor <;> refine abs_le.mpr ⟨?_, ?_⟩ <;> linarith

/-- Seven digits of the amplitude and its inverse, six of `alpha` and five of the cosine are four digits of the bell. -/
theorem rawPeaking_near {A A' B' a a' c c' : ℝ} (hA : Approx (1 / 10 ^ 7) 2 A A') (hB : Approx (1 / 10 ^ 7) 2 A⁻¹ B')
    (ha : Approx (1 / 10 ^ 6) (1 / 10) a a') (hc : Approx (1 / 10 ^ 5) 1 c c') :
    (rawPeaking real { amp := A, alpha := a, cosw0 := c }).Near (1 / 40000)
      { b0 := 1 + a' * A', b1 := -2 * c', b2 := 1 - a' * A', a0 := 1 + a' * B', a1 := -2 * c', a2 := 1 - a' * B' } := by
  have nearC := abs_le.mp hc.near
  have nearA := abs_le.mp (ha.mul hA).near
  have nearB := abs_le.mp (ha.mul hB).near
  rw [rawPeaking_real]
  simp only [div_eq_mul_inv a A]
  constructor <;> refine abs_le.mpr ⟨?_, ?_⟩ <;> linarith

/-! #### What the setters design at 48 kHz -/

/-- The default clamps change neither the band's frequency nor its `Q`, and `w0` is a fraction of pi. -/
theorem designBand_real_48000 (b : Band) {pot g n Q : ℝ} (hg : gainLaw pot (bandMaxDb b : ℝ) = g)
    (hn : bandF0 b * n = 24000) (hQ : 2 * bandQ b = Q) : designBand real ClampParams.default b 48000 pot =
    some (normalise real (rawCoeffs real (bandShape b)
      { amp := (10 : ℝ) ^ (g / 40), alpha := Real.sin (Real.pi / n) / Q, cosw0 := Real.cos (Real.pi / n) })) := by
  have hf0 : (0 : ℝ) ≤ bandF0 b := by exact_mod_cast (bandF0_mem b).1
  have hf1 : (bandF0 b : ℝ) ≤ 4000 := by exact_mod_cast (bandF0_mem b).2
  have hq : (ClampParams.default.qFloor : ℝ) ≤ bandQ b := by exact_mod_cast default_qFloor_le_bandQ b
  have hnyq : (bandF0 b : ℝ) ≤ ClampParams.default.nyqFrac * (48000 / 2) := by
    rw [ClampParams.default_nyqFrac]
    push_cast
    linarith
  have hn0 : n ≠ 0 := by
    rintro rfl
    norm_num at hn
  have hw : 2 * Real.pi * bandF0 b / 48000 = Real.pi / n := by
    rw [div_eq_div_iff (by norm_num) hn0]
    linear_combination 2 * Real.pi * hn
  rw [designBand, design_real _ _ _ _ (by norm_num), sharedTerms_real]
  simp only [real_lit, max_eq_left hf0, min_eq_left hnyq, max_eq_left hq, gainDb_real, hw, hg, hQ]

theorem designBand_real_bass {pot g : ℝ} (hg : gainLaw pot 15 = g) :
    designBand real ClampParams.default .bass 48000 pot = some (normalise real (rawLowShelf real
      { amp := (10 : ℝ) ^ (g / 40), alpha := Real.sin (Real.pi / 300) / (707 / 500),
        cosw0 := Real.cos (Real.pi / 300) })) :=
  designBand_real_48000 .bass (by simpa [bandMaxDb] using hg) (by norm_num [bandF0]) (by norm_num [bandQ])

theorem designBand_real_mid {pot g : ℝ} (hg : gainLaw pot 12 = g) :
    designBand real ClampParams.default .mid 48000 pot = some (normalise real (rawPeaking real
      { amp := (10 : ℝ) ^ (g / 40), alpha := Real.sin (Real.pi / 30) / 2, cosw0 := Real.cos (Real.pi / 30) })) :=
  designBand_real_48000 .mid (by simpa [bandMaxDb] using hg) (by norm_num [bandF0]) (by norm_num [bandQ])

theorem designBand_real_treble {pot g : ℝ} (hg : gainLaw pot 15 = g) :
    designBand real ClampParams.default .treble 48000 pot = some (normalise real (rawHighShelf real
      { amp := (10 : ℝ) ^ (g / 40), alpha := Real.sin (Real.pi / 6) / (707 / 500),
        cosw0 := Real.cos (Real.pi / 6) })) :=
  designBand_real_48000 .treble (by simpa [bandMaxDb] using hg) (by norm_num [bandF0]) (by norm_num [bandQ])

/-! #### The shared terms of the examples -/

/-- An amplitude is the square of the power of ten with half its exponent. -/
theorem tenPow_eq_sq (g : ℝ) : (10 : ℝ) ^ (g / 40) = ((10 : ℝ) ^ (g / 80)) ^ 2 := by
  rw [← Real.rpow_natCast, ← Real.rpow_mul (by norm_num)]
  congr 1
  push_cast
  ring

/-- The root of a shelf's amplitude at 15 dB. -/
theorem approx_shelfBoost : Approx (1 / 10 ^ 7) (8 / 5) ((10 : ℝ) ^ ((15 : ℝ) / 80)) 1.5399265 :=
  ⟨abs_tenPow_sub_le (n := 16) (p := 3) (by norm_num) (by norm_num) (by norm_num) (by norm_num) (by norm_num),
    by norm_num⟩

/-- The root of a shelf's amplitude at -15 dB. -/
theorem approx_shelfCut : Approx (1 / 10 ^ 7) (8 / 5) ((10 : ℝ) ^ ((-15 : ℝ) / 80)) 0.6493816 :=
  ⟨abs_tenPow_sub_le (n := 16) (p := -3) (by norm_num) (by norm_num) (by norm_num) (by norm_num) (by norm_num),
    by norm_num⟩

/-- The bell's amplitude at 12 dB. -/
theorem approx_bellBoost : Approx (1 / 10 ^ 7) 2 ((10 : ℝ) ^ ((12 : ℝ) / 40)) 1.9952623 :=
  ⟨abs_tenPow_sub_le (n := 10) (p := 3) (by norm_num) (by norm_num) (by norm_num) (by norm_num) (by norm_num),
    by norm_num⟩

/-- The bell's amplitude at -12 dB. -/
theorem approx_bellCut : Approx (1 / 10 ^ 7) 2 ((10 : ℝ) ^ ((-12 : ℝ) / 40)) 0.5011872 :=
  ⟨abs_tenPow_sub_le (n := 10) (p := -3) (by norm_num) (by norm_num) (by norm_num) (by norm_num) (by norm_num),
    by norm_num⟩

/-- The bell's amplitudes at 12 dB and at -12 dB are inverse to each other. -/
theorem tenPow_neg_bell : ((10 : ℝ) ^ ((-12 : ℝ) / 40)) = ((10 : ℝ) ^ ((12 : ℝ) / 40))⁻¹ := by
  rw [neg_div, Real.rpow_neg (by norm_num)]

/-- Six digits of a fraction of pi. -/
theorem abs_pi_div_sub_le {n : ℝ} (hn : 0 < n) : |Real.pi / n - 3.1415925 / n| ≤ 1 / 10 ^ 6 / n := by
  have hlo := Real.pi_gt_d6
  have hhi := Real.pi_lt_d6
  rw [← sub_div, abs_div, abs_of_pos hn]
  gcongr
  exact abs_le.mpr ⟨by linarith, by linarith⟩

/-- The shared terms of the bass band at 48 kHz, where `w0` is `π / 300`. -/
theorem approx_bassTerms : Approx (1 / 10 ^ 7) (1 / 2) (Real.sin (Real.pi / 300) / (707 / 500)) 0.0074057879 ∧
    Approx (1 / 10 ^ 7) 1 (Real.cos (Real.pi / 300)) 0.9999451694 := by
  have hw := abs_pi_div_sub_le (n := 300) (by norm_num)
  have hsin := abs_le.mp (abs_sin_sub_le hw (by norm_num))
  have hcos := abs_le.mp (abs_cos_sub_le hw (by norm_num))
  norm_num at hsin hcos
  exact ⟨⟨abs_le.mpr ⟨by linarith, by linarith⟩, by norm_num⟩, ⟨abs_le.mpr ⟨by linarith, by linarith⟩, by norm_num⟩⟩

/-- The shared terms of the mid band at 48 kHz, where `w0` is `π / 30`. -/
theorem approx_midTerms : Approx (1 / 10 ^ 6) (1 / 10) (Real.sin (Real.pi / 30) / 2) 0.0522642 ∧
    Approx (1 / 10 ^ 5) 1 (Real.cos (Real.pi / 30)) 0.9945193 := by
  have hw := abs_pi_div_sub_le (n := 30) (by norm_num)
  have hsin := abs_le.mp (abs_sin_sub_le hw (by norm_num))
  have hcos := abs_le.mp (abs_cos_sub_le hw (by norm_num))
  norm_num at hsin hcos
  exact ⟨⟨abs_le.mpr ⟨by linarith, by linarith⟩, by norm_num⟩, ⟨abs_le.mpr ⟨by linarith, by linarith⟩, by norm_num⟩⟩

/-- The shared terms of the treble band at 48 kHz, where `w0` is `π / 6`; the cosine negated, as the mirror image of the
high shelf has it. -/
theorem approx_trebleTerms : Approx (1 / 10 ^ 7) (1 / 2) (Real.sin (Real.pi / 6) / (707 / 500)) 0.3536068 ∧
    Approx (1 / 10 ^ 7) 1 (-Real.cos (Real.pi / 6)) (-0.8660254) := by
  have hroot : |√3 / 2 - 0.8660254| ≤ 1 / 10 ^ 7 := by
    have hsq : (√3 / 2) ^ 2 = 3 / 4 := by
      rw [div_pow, Real.sq_sqrt (by norm_num)]
      norm_num
    exact abs_sub_le_of_pow two_ne_zero (by positivity) (by norm_num) (by rw [hsq]; norm_num) (by rw [hsq]; norm_num)
  rw [Real.sin_pi_div_six, Real.cos_pi_div_six]
  exact ⟨⟨by norm_num [abs_le], by norm_num⟩, by rwa [neg_sub_neg, abs_sub_comm], by norm_num⟩

/-! #### The examples -/

/-- A low shelf whose terms are known to seven digits has the figures its reference has. -/
theorem normalise_rawLowShelf_near {g r' a a' c c' : ℝ} {k : Coeffs ℝ}
    (hr : Approx (1 / 10 ^ 7) (8 / 5) ((10 : ℝ) ^ (g / 80)) r') (ha : Approx (1 / 10 ^ 7) (1 / 2) a a')
    (hc : Approx (1 / 10 ^ 7) 1 c c') (hr0 : 0 ≤ r')
    (hk : (rawLowShelf real { amp := r' ^ 2, alpha := a', cosw0 := c' }).Fits (1 / 10 ^ 5) k) :
    (normalise real (rawLowShelf real { amp := (10 : ℝ) ^ (g / 40), alpha := a, cosw0 := c })).Near k := by
  rw [tenPow_eq_sq]
  exact (rawLowShelf_near hr ha hc (by positivity) hr0).normalise hk

/-- Likewise a high shelf, by its mirror image. -/
theorem normalise_rawHighShelf_near {g r' a a' c c' : ℝ} {k : Coeffs ℝ}
    (hr : Approx (1 / 10 ^ 7) (8 / 5) ((10 : ℝ) ^ (g / 80)) r') (ha : Approx (1 / 10 ^ 7) (1 / 2) a a')
    (hc : Approx (1 / 10 ^ 7) 1 (-c) c') (hr0 : 0 ≤ r')
    (hk : (rawLowShelf real { amp := r' ^ 2, alpha := a', cosw0 := c' }).mirror.Fits (1 / 10 ^ 5) k) :
    (normalise real (rawHighShelf real { amp := (10 : ℝ) ^ (g / 40), alpha := a, cosw0 := c })).Near k := by
  rw [tenPow_eq_sq, rawHighShelf_real_eq_mirror]
  exact (rawLowShelf_near hr ha hc (by positivity) hr0).mirror.normalise hk

/-- The example of R144 at full boost. -/
theorem bassBoost_near : ∃ k, designBand real ClampParams.default .bass 48000 0 = some k ∧ k.Near
    { ff := 1.006616921, c1 := -1.990275104, c2 := 0.9839169903, d1 := -1.990381496, d2 := 0.9904275188 } := by
  obtain ⟨hAlpha, hCos⟩ := approx_bassTerms
  refine ⟨_, designBand_real_bass (gainLaw_of_le_zero le_rfl),
    normalise_rawLowShelf_near approx_shelfBoost hAlpha hCos (by norm_num) ?_⟩
  rw [rawLowShelf_real_sq _ _ (by norm_num)]
  norm_num [RawCoeffs.Fits, FitsFigure]

/-- The example of R145 at full boost. -/
theorem midBoost_near : ∃ k, designBand real ClampParams.default .mid 48000 0 = some k ∧ k.Near
    { ff := 1.076093481, c1 := -1.938272363, c2 := 0.8728554285, d1 := -1.938272363, d2 := 0.9489489094 } := by
  obtain ⟨hAlpha, hCos⟩ := approx_midTerms
  refine ⟨_, designBand_real_mid (gainLaw_of_le_zero le_rfl),
    (rawPeaking_near approx_bellBoost (tenPow_neg_bell ▸ approx_bellCut) hAlpha hCos).normalise ?_⟩
  norm_num [RawCoeffs.Fits, FitsFigure]

/-- The example of R145 at full cut. -/
theorem midCut_near : ∃ k, designBand real ClampParams.default .mid 48000 1 = some k ∧ k.Near
    { ff := 0.9292872950, c1 := -1.801211881, c2 := 0.8818461651, d1 := -1.801211881, d2 := 0.8111334601 } := by
  obtain ⟨hAlpha, hCos⟩ := approx_midTerms
  have hInv : Approx (1 / 10 ^ 7) 2 ((10 : ℝ) ^ ((-12 : ℝ) / 40))⁻¹ 1.9952623 := by
    rw [tenPow_neg_bell, inv_inv]
    exact approx_bellBoost
  refine ⟨_, designBand_real_mid (gainLaw_of_one_le le_rfl),
    (rawPeaking_near approx_bellCut hInv hAlpha hCos).normalise ?_⟩
  norm_num [RawCoeffs.Fits, FitsFigure]

/-- The example of R146 at full boost. -/
theorem trebleBoost_near : ∃ k, designBand real ClampParams.default .treble 48000 0 = some k ∧ k.Near
    { ff := 4.092444805, c1 := -6.218388594, c2 := 2.514241485, d1 := -0.9461794815, d2 := 0.3344771783 } := by
  obtain ⟨hAlpha, hCos⟩ := approx_trebleTerms
  refine ⟨_, designBand_real_treble (gainLaw_of_le_zero le_rfl),
    normalise_rawHighShelf_near approx_shelfBoost hAlpha hCos (by norm_num) ?_⟩
  rw [rawLowShelf_real_sq _ _ (by norm_num)]
  norm_num [RawCoeffs.Fits, FitsFigure, RawCoeffs.mirror]

/-- The example of R146 at full cut. -/
theorem trebleCut_near : ∃ k, designBand real ClampParams.default .treble 48000 1 = some k ∧ k.Near
    { ff := 0.2443527152, c1 := -0.2312015254, c2 := 0.08173040671, d1 := -1.519480137, d2 := 0.6143617337 } := by
  obtain ⟨hAlpha, hCos⟩ := approx_trebleTerms
  refine ⟨_, designBand_real_treble (gainLaw_of_one_le le_rfl),
    normalise_rawHighShelf_near approx_shelfCut hAlpha hCos (by norm_num) ?_⟩
  rw [rawLowShelf_real_sq _ _ (by norm_num)]
  norm_num [RawCoeffs.Fits, FitsFigure, RawCoeffs.mirror]

/-- Settles O42: each design is near a reference of rational terms, which has the figures of the example with room for
the error. -/
theorem settersReproduceTheWorkedExamples : Obligations.SettersReproduceTheWorkedExamples :=
  ⟨bassBoost_near, midBoost_near, midCut_near, trebleBoost_near, trebleCut_near⟩

end Sys2Proof.Machine

/-! ### What each context touches (60_exceptions.md R170) -/

namespace Sys2Proof.Machine

section Contexts

variable {B : Build} {s t : State} {p : Port} {i : Instr} {b : Band}

/-- The operation a port begins is one of that port (30_encoding.md R68). -/
theorem State.port_of_beginsOn (hi : s.beginsOn p = some i) : i.port = p := by
  obtain ⟨_, _, -, hd⟩ := State.queueOf_of_beginsOn hi
  exact port_of_decode hd

/-- What writes coefficients is an operation of CTRL. -/
theorem LoadedTuple.port {k : Coeffs NUM} (h : LoadedTuple B s i b k) : i.port = .ctrl := by
  obtain ⟨ff, c1, c2, d1, d2, rfl, -⟩ | ⟨pot, fs, rfl, -⟩ := h
  · rfl
  · cases b <;> rfl

/-- What feeds a section as it begins is an operation of AUDIO. -/
theorem port_of_delayActOf_shift {x : NUM} (h : delayActOf i = some (.shift b x)) : i.port = .audio := by
  obtain rfl | ⟨-, rfl⟩ := delayActOf_eq_shift.mp h <;> rfl

/-- A step of a port leaves the other one as it is. -/
theorem eq_withOtherOf_of_stepPort (h : stepPort B (execOn B) p s = .next t) : t = State.withOtherOf p s t := by
  have hself : s = State.withOtherOf p s s := by cases p <;> rfl
  obtain ⟨hnext, -⟩ := stepPort_of_eq_withOtherOf (B := B) hself
  exact Host.Outcome.next.inj (h.symm.trans (hnext t h))

/-- A step of AUDIO writes no coefficient: whatever does is an operation of CTRL. -/
theorem PortStep.audio_coef (h : PortStep B s .audio t) (b : Band) :
    (t.regs.sec b).coef = (s.regs.sec b).coef := by
  obtain hk | ⟨i, hi, hl⟩ := h.coef b
  · exact hk
  · cases (State.port_of_beginsOn hi).symm.trans hl.port

/-- A step of AUDIO leaves FS as it is: EQ.INIT is an operation of CTRL. -/
theorem PortStep.audio_fs (h : PortStep B s .audio t) :
    t.regs.fs = s.regs.fs ∧ t.regs.fsWritten = s.regs.fsWritten := by
  obtain hfs | ⟨fs, hi, -⟩ := h.fs
  · exact hfs
  · cases State.port_of_beginsOn hi

/-- The delay pair of section `b` is in `r'` as it is in `r`, or zero. -/
def KeptOrZeroed (N : Numerics NUM) (r r' : Regs NUM) (b : Band) : Prop :=
  ((r'.sec b).z1 = (r.sec b).z1 ∧ (r'.sec b).z2 = (r.sec b).z2) ∨
    ((r'.sec b).z1 = N.lit 0 ∧ (r'.sec b).z2 = N.lit 0)

theorem keptOrZeroed_zero (N : Numerics NUM) (r : Regs NUM) (b' b : Band) : KeptOrZeroed N r (r.zero N b') b := by
  by_cases hb : b = b'
  · subst hb
    exact .inr (by simp)
  · exact .inl (by simp [hb])

/-- An action that is no feeding, or none at all, keeps every delay pair or zeroes it. -/
theorem DelaysAfter.keptOrZeroed {N : Numerics NUM} {r r' : Regs NUM} {o : Option DelayAct} (h : DelaysAfter N r r' o)
    (ho : ∀ b x, o ≠ some (.shift b x)) (b : Band) : KeptOrZeroed N r r' b := by
  cases o with
  | none => exact .inl (h b)
  | some a =>
    obtain rfl : r' = r.act N a := h
    cases a with
    | shift b' x => exact absurd rfl (ho b' x)
    | zero b' => exact keptOrZeroed_zero N r b' b

/-- A step of CTRL keeps a delay pair or zeroes it: whatever feeds a section is an operation of AUDIO. -/
theorem PortStep.ctrl_delays (h : PortStep B s .ctrl t) (b : Band) : KeptOrZeroed B.num s.regs t.regs b := by
  cases h with
  | waits => exact .inl ⟨rfl, rfl⟩
  | resumesEqInit =>
    rw [resumeEqInit_regs]
    exact keptOrZeroed_zero ..
  | begins hi ht =>
    have hd := execOn_delays ht
    rw [State.setQueue_regs] at hd
    refine hd.keptOrZeroed (fun b' x ha => ?_) b
    cases (State.port_of_beginsOn hi).symm.trans (port_of_delayActOf_shift ha)

end Contexts

/-- Settles O51: what writes coefficients or FS is an operation of CTRL, what feeds a section is one of AUDIO, and a
step of a port does not see the other. -/
theorem contextsTouchOnlyTheirState : Obligations.ContextsTouchOnlyTheirState := by
  refine onEveryBuild fun B => ⟨fun s t h => ?_, fun s t h => ?_⟩
  · have hp := stepPort_cases h
    obtain ⟨hfs, hw⟩ := hp.audio_fs
    exact ⟨hp.audio_coef, hfs, hw, (congrArg State.ctrl (eq_withOtherOf_of_stepPort h)).trans rfl⟩
  · exact ⟨(stepPort_cases h).ctrl_delays, (congrArg State.audio (eq_withOtherOf_of_stepPort h)).trans rfl⟩

end Sys2Proof.Machine

/-! ### The closed list of refusals (60_exceptions.md R172) -/

namespace Sys2Proof.Machine

section Refusals

variable {B : Build} {s : State} {p : Port} {i : Instr} {c : Command} {r : Refusal} {fs : NUM}

/-- A designer command is refused for its sample rate operand alone. -/
theorem answerDesign_refused {sh : Shape} {f q g : NUM} (h : answerDesign B sh fs f q g s = .refused r) :
    r = .nonpositiveSampleRate ∧ rateBad B.num fs = true := by
  obtain ⟨hbad, e⟩ | ⟨-, k, -, e⟩ := answerDesign_cases B sh fs f q g s <;> cases e.symm.trans h
  exact ⟨rfl, hbad⟩

/-- EQ.INIT is refused for its sample rate operand alone. -/
theorem eqInitOn_refused (h : eqInitOn B fs s = .refused r) :
    r = .nonpositiveSampleRate ∧ rateBad B.num fs = true := by
  obtain ⟨hbad, e⟩ | ⟨-, e⟩ := eqInitOn_cases B fs s <;> cases e.symm.trans h
  exact ⟨rfl, hbad⟩

/-- While FS holds no value or a positive one, a setter is refused only where it holds none. -/
theorem installBand_refused {b : Band} {pot : NUM} (hs : FsPositive B.num s)
    (h : installBand B b pot s = .refused r) : r = .setterBeforeInit ∧ s.regs.rate = none := by
  obtain ⟨hr, e⟩ | ⟨fs, hr, hbad, -⟩ | ⟨fs, k, -, -, -, e⟩ := installBand_cases B b pot s
  · cases e.symm.trans h
    exact ⟨rfl, hr⟩
  · cases (hs fs hr).symm.trans hbad
  · cases e.symm.trans h

/-- The operation has the sample rate `fs` as an operand (30_encoding.md R64). -/
def TakesRate (i : Instr) (fs : NUM) : Prop :=
  i = .eqInit fs ∨ ∃ f q g, i = .fdLsh fs f q g ∨ i = .fdPeak fs f q g ∨ i = .fdHsh fs f q g

theorem takesRate_designerOf (sh : Shape) (fs f q g : NUM) : TakesRate (designerOf sh fs f q g) fs := by
  cases sh <;> simp [TakesRate, designerOf]

/-- While FS holds no value or a positive one, an operation is refused for a sample rate operand that is not positive,
or is a setter while FS holds no value. -/
theorem execOn_refused (hs : FsPositive B.num s) (h : execOn B i s = .refused r) :
    (r = .nonpositiveSampleRate ∧ ∃ fs, rateBad B.num fs = true ∧ TakesRate i fs) ∨
    (r = .setterBeforeInit ∧ s.regs.rate = none ∧ ∃ b pot, i = setterOf b pot) := by
  have designed {sh fs f q g} (h : answerDesign B sh fs f q g s = .refused r) :
      r = .nonpositiveSampleRate ∧ ∃ fs', rateBad B.num fs' = true ∧ TakesRate (designerOf sh fs f q g) fs' := by
    obtain ⟨hr, hbad⟩ := answerDesign_refused h
    exact ⟨hr, fs, hbad, takesRate_designerOf ..⟩
  have installed {b pot} (h : installBand B b pot s = .refused r) :
      r = .setterBeforeInit ∧ s.regs.rate = none ∧ ∃ b' pot', setterOf b pot = setterOf b' pot' := by
    obtain ⟨hr, hnone⟩ := installBand_refused hs h
    exact ⟨hr, hnone, b, pot, rfl⟩
  cases i with
  | bqReset | bqSetc | bqProc | eqProc => cases h
  | fdLsh => exact .inl (designed (sh := .lowShelf) h)
  | fdPeak => exact .inl (designed (sh := .peaking) h)
  | fdHsh => exact .inl (designed (sh := .highShelf) h)
  | eqInit fs =>
    obtain ⟨hr, hbad⟩ := eqInitOn_refused h
    exact .inl ⟨hr, fs, hbad, .inl rfl⟩
  | eqSetBass => exact .inr (installed (b := .bass) h)
  | eqSetMid => exact .inr (installed (b := .mid) h)
  | eqSetTreb => exact .inr (installed (b := .treble) h)

/-- A step that is refused takes a command: waiting and going on with a composite never are. -/
theorem exists_takes_of_stepOn_refused (h : stepOn B s = .refused r) : ∃ p c, s.takes B p c := by
  obtain ⟨-, e⟩ | ⟨p, hm, e⟩ := advance_cases B (execOn B) s
  · cases e.symm.trans h
  · have hp := e.symm.trans h
    cases p with
    | audio =>
      obtain ⟨_, -, e⟩ | ⟨-, -, e⟩ | ⟨c, rest, hb, hq, -⟩ := stepAudio_cases B (execOn B) s
      · cases e.symm.trans hp
      · cases e.symm.trans hp
      · exact ⟨.audio, c, hm, hb, by rw [hq, List.head?_cons]⟩
    | ctrl =>
      obtain ⟨_, -, e⟩ | ⟨-, -, e⟩ | ⟨c, rest, hb, hq, -⟩ := stepCtrl_cases B (execOn B) s
      · cases e.symm.trans hp
      · cases e.symm.trans hp
      · exact ⟨.ctrl, c, hm, hb, by rw [hq, List.head?_cons]⟩

/-- A step that takes a command begins the operation the command names. -/
theorem State.startsNext_of_takes (ht : s.takes B p c) (hd : decode p c = .ok i) : s.startsNext B = some i := by
  obtain ⟨hm, ht⟩ := ht
  rw [State.startsNext_of_mover hm]
  cases p with
  | audio =>
    obtain ⟨hb, hq⟩ := ht
    obtain ⟨rest, hq⟩ := List.head?_eq_some_iff.mp hq
    simp [State.beginsOn, hb, hq, hd, Except.toOption]
  | ctrl =>
    obtain ⟨hb, hq⟩ := ht
    obtain ⟨rest, hq⟩ := List.head?_eq_some_iff.mp hq
    simp [State.beginsOn, hb, hq, hd, Except.toOption]

end Refusals

/-- Settles O56: a refused step takes a command; the decoder refuses it by the header, the operand count or the port, or
the operation it names is refused for a sample rate. -/
theorem refusalsAreTheClosedList : Obligations.RefusalsAreTheClosedList := by
  refine onEveryMachine fun B s r hs h => ?_
  obtain ⟨p, c, ht⟩ := exists_takes_of_stepOn_refused h
  obtain ⟨hh, hd⟩ | ⟨hh, hn, hd⟩ | ⟨hh, -, hp, hd⟩ | ⟨-, -, -, i, -, hd⟩ := decode_cases p c
  · cases (advance_of_decode_error ht hd).symm.trans h
    exact .inl ⟨rfl, p, c, ht, hh⟩
  · cases (advance_of_decode_error ht hd).symm.trans h
    exact .inr (.inl ⟨rfl, p, c, ht, hh, hn⟩)
  · cases (advance_of_decode_error ht hd).symm.trans h
    exact .inr (.inr (.inl ⟨rfl, p, c, ht, hh, hp⟩))
  · have hs' : FsPositive B.num (s.setQueue p (s.queueOf p).tail) := by simpa [FsPositive] using hs
    have hrun := (advance_of_decode ht hd).symm.trans h
    rw [State.startsNext_of_takes ht hd]
    obtain ⟨hr, fs, hbad, hi⟩ | ⟨hr, hnone, b, pot, hi⟩ := execOn_refused hs' hrun
    · exact .inr (.inr (.inr (.inl ⟨hr, fs, hbad, by simpa [TakesRate] using hi⟩)))
    · exact .inr (.inr (.inr (.inr ⟨hr, by simpa using hnone, b, pot, congrArg some hi⟩)))

end Sys2Proof.Machine

/-! ### Mute until the section is loaded (70_reset_and_hazards.md R184, 40_biquad_section.md R86) -/

namespace Sys2Proof

@[simp] theorem Band.ofSel_toSel (b : Band) : Band.ofSel b.toSel = some b := by cases b <;> rfl

/-- A section is known by its SEL value (20_memory.md R42). -/
theorem Band.toSel_injective : Function.Injective Band.toSel := fun b b' h =>
  Option.some.inj (by rw [← Band.ofSel_toSel b, h, Band.ofSel_toSel])

end Sys2Proof

namespace Sys2Proof.Machine

section Mute

variable {B : Build} {N : Numerics NUM} {s t : State} {r : Regs NUM} {p : Port} {b b' : Band} {x : NUM}

/-! #### The registers of a muted run -/

/-- What `MutedAt` asks of the registers: section `b` as at power-on, and every later section at rest. -/
def MutedRegs (N : Numerics NUM) (b : Band) (r : Regs NUM) : Prop :=
  r.sec b = .powerOn N ∧ ∀ b', b.toSel < b'.toSel → (r.sec b').z1 = N.lit 0 ∧ (r.sec b').z2 = N.lit 0

/-- A sample through a section with its power-on registers leaves them as they are. -/
theorem advance_powerOn (hN : ZeroLaws N) (x : NUM) :
    (BiquadSection.powerOn N).advance N x = .powerOn N := by
  rw [BiquadSection.advance, recurrence_silent hN rfl]
  rfl

theorem MutedRegs.setFs (h : MutedRegs N b r) (fs : NUM) : MutedRegs N b (r.setFs fs) := by
  simpa [MutedRegs] using h

theorem MutedRegs.setCoef (h : MutedRegs N b r) (hb : b' ≠ b) (k : Coeffs NUM) : MutedRegs N b (r.setCoef b' k) := by
  simpa [MutedRegs, hb.symm] using h

theorem MutedRegs.zero (h : MutedRegs N b r) (b' : Band) : MutedRegs N b (r.zero N b') := by
  obtain ⟨hown, hlater⟩ := h
  refine ⟨?_, fun c hc => ?_⟩
  · by_cases hb : b = b'
    · subst hb
      rw [Regs.zero_self, hown]
      rfl
    · rw [Regs.zero_ne N r hb, hown]
  · by_cases hb : c = b'
    · subst hb
      simp
    · rw [Regs.zero_ne N r hb]
      exact hlater c hc

/-- Section `b` and every later one answer zero, if what the later ones are fed is zero. -/
theorem MutedRegs.procOut (hN : ZeroLaws N) (h : MutedRegs N b r) (hb : b.toSel ≤ b'.toSel)
    (hx : b.toSel < b'.toSel → x = N.lit 0) : r.procOut N b' x = N.lit 0 := by
  obtain ⟨hown, hlater⟩ := h
  rcases hb.lt_or_eq with hlt | heq
  · obtain ⟨hz1, hz2⟩ := hlater b' hlt
    rw [hx hlt]
    exact recurrence_rest hN hz1 hz2
  · obtain rfl : b = b' := Band.toSel_injective heq
    exact recurrence_silent hN (by rw [hown]; rfl) x

/-- A sample through one section keeps the registers muted, if what the sections after `b` are fed is zero. -/
theorem MutedRegs.proc (hN : ZeroLaws N) (h : MutedRegs N b r) (hx : b.toSel < b'.toSel → x = N.lit 0) :
    MutedRegs N b (r.proc N b' x) := by
  have ⟨hown, hlater⟩ := h
  refine ⟨?_, fun c hc => ?_⟩
  · by_cases hb : b = b'
    · subst hb
      rw [Regs.proc_self, hown, advance_powerOn hN]
    · rw [Regs.proc_ne N r x hb, hown]
  · by_cases hb : c = b'
    · subst hb
      rw [Regs.proc_self]
      exact ⟨h.procOut hN hc.le hx, (hlater c hc).1⟩
    · rw [Regs.proc_ne N r x hb]
      exact hlater c hc

/-! #### The run -/

/-- The clauses of `MutedAt`, with what an EQ.PROC in progress is about to feed as one clause. -/
theorem mutedAt_iff : MutedAt N b s ↔ MutedRegs N b s.regs ∧
    (∀ rest, s.audio.busy = some rest → b.toSel < rest.band.toSel → rest.input = N.lit 0) ∧
    ∀ y ∈ s.audio.responses, y = [N.lit 0] := by
  have hmid : b.toSel < Band.mid.toSel ↔ b = .bass := by cases b <;> decide
  have htreble : b.toSel < Band.treble.toSel ↔ b ≠ .treble := by cases b <;> decide
  constructor
  · rintro ⟨hown, hlater, hu, hv, hy⟩
    refine ⟨⟨hown, hlater⟩, fun rest hb hlt => ?_, hy⟩
    cases rest with
    | mid u => exact hu u hb (hmid.mp hlt)
    | treble v => exact hv v hb (htreble.mp hlt)
  · rintro ⟨⟨hown, hlater⟩, hrest, hy⟩
    exact ⟨hown, hlater, fun u hb hlt => hrest (.mid u) hb (hmid.mpr hlt),
      fun v hb hlt => hrest (.treble v) hb (htreble.mpr hlt), hy⟩

theorem MutedAt.setQueue (h : MutedAt N b s) (p : Port) (q : List Command) : MutedAt N b (s.setQueue p q) := by
  cases p <;> exact h

/-- What leaves AUDIO alone may do anything that keeps the registers muted. -/
theorem MutedAt.of_audio_eq (h : MutedAt N b s) (hr : MutedRegs N b t.regs) (ha : t.audio = s.audio) :
    MutedAt N b t := by
  rw [mutedAt_iff] at h ⊢
  rw [ha]
  exact ⟨hr, h.2⟩

/-- AUDIO may answer zero. -/
theorem MutedAt.finishAudio (h : MutedAt N b s) (hr : MutedRegs N b r) {y : NUM} (hy : y = N.lit 0) :
    MutedAt N b (s.finishAudio r [y]) := by
  obtain ⟨-, -, hs⟩ := mutedAt_iff.mp h
  refine mutedAt_iff.mpr ⟨hr, by simp, ?_⟩
  simpa [or_imp, forall_and, hy] using hs

/-- An EQ.PROC may go on with zero to a section after `b`. -/
theorem MutedAt.goOnAudio (h : MutedAt N b s) (hr : MutedRegs N b r) {rest : EqProcRest}
    (hrest : b.toSel < rest.band.toSel → rest.input = N.lit 0) : MutedAt N b (s.goOnAudio r rest) := by
  obtain ⟨-, -, hs⟩ := mutedAt_iff.mp h
  refine mutedAt_iff.mpr ⟨hr, fun rest' hb => ?_, hs⟩
  cases hb
  exact hrest

/-- An operation that neither loads section `b` nor is a BQ.PROC keeps the run muted. -/
theorem MutedAt.afterExecOn {i : Instr} (hN : ZeroLaws B.num) (hs : MutedAt B.num b s) (hload : loadsCoefs i b = false)
    (hproc : isBqProc i = false) (h : execOn B i s = .next t) : MutedAt B.num b t := by
  obtain ⟨hregs, -⟩ := mutedAt_iff.mp hs
  obtain ⟨b', -, rfl⟩ | ⟨b', k, hl, rfl⟩ | ⟨b', x, rfl, -⟩ | ⟨k, -, -, rfl⟩ | ⟨fs, -, -, rfl⟩ | ⟨x, -, rfl⟩ :=
    execOn_cases h
  · exact hs.of_audio_eq (hregs.zero b') rfl
  · have hb : b' ≠ b := by
      rintro rfl
      exact Bool.noConfusion (hload.symm.trans hl)
    exact hs.of_audio_eq (hregs.setCoef hb k) rfl
  · cases hproc
  · exact hs.of_audio_eq hregs rfl
  · exact hs.of_audio_eq (hregs.setFs fs) rfl
  · have hx : b.toSel < Band.bass.toSel → x = B.num.lit 0 := fun hlt => absurd hlt (Nat.not_lt_zero _)
    exact hs.goOnAudio (hregs.proc hN hx) fun hlt => hregs.procOut hN (Nat.le_of_lt_succ hlt) hx

/-- A further sub-step of EQ.PROC keeps the run muted. -/
theorem MutedAt.afterResumeEqProc (hN : ZeroLaws B.num) (hs : MutedAt B.num b s) {rest : EqProcRest}
    (hb : s.audio.busy = some rest) : MutedAt B.num b (resumeEqProc B rest s) := by
  obtain ⟨hregs, hrest, -⟩ := mutedAt_iff.mp hs
  have hx := hrest rest hb
  obtain ⟨u, rfl, e⟩ | ⟨v, rfl, e⟩ := resumeEqProc_cases B rest s <;> rw [e]
  · exact hs.goOnAudio (hregs.proc hN hx) fun hlt => hregs.procOut hN (Nat.le_of_lt_succ hlt) hx
  · have hle : b.toSel ≤ Band.treble.toSel := by cases b <;> decide
    exact hs.finishAudio (hregs.proc hN hx) (hregs.procOut hN hle hx)

/-- Every step of a port that begins neither a load of section `b` nor a BQ.PROC keeps the run muted. -/
theorem MutedAt.afterPortStep (hN : ZeroLaws B.num) (hs : MutedAt B.num b s) (h : PortStep B s p t)
    (hi : ∀ i, s.beginsOn p = some i → loadsCoefs i b = false ∧ isBqProc i = false) : MutedAt B.num b t := by
  cases h with
  | waits => exact hs
  | resumesEqProc hb => exact hs.afterResumeEqProc hN hb
  | @resumesEqInit rest hb =>
    obtain ⟨hregs, -⟩ := mutedAt_iff.mp hs
    exact hs.of_audio_eq (by simpa using hregs.zero rest.band) (by cases rest <;> rfl)
  | begins hbegins ht =>
    obtain ⟨hload, hproc⟩ := hi _ hbegins
    exact (hs.setQueue _ _).afterExecOn hN hload hproc ht

end Mute

/-- Settles O59: section `b` turns whatever it is fed into zero, and every later section, being at rest, passes zero on. -/
theorem muteLastsUntilTheSectionIsLoaded : Obligations.MuteLastsUntilTheSectionIsLoaded := by
  refine onEveryMachine fun B b s t hN hs h hi => ?_
  obtain ⟨-, rfl⟩ | ⟨p, hm, hp⟩ := stepOn_cases h
  · exact hs
  · exact hs.afterPortStep hN hp (State.startsNext_of_mover hm ▸ hi)

end Sys2Proof.Machine

/-! ### The stability of the bands at 48 kHz (70_reset_and_hazards.md R189, 40_biquad_section.md R89)

The stability test says that `(p1, p2)` lies inside a triangle. Times `a0`, each of its three sides is one inequality
between raw coefficients, and together they make `a0` positive. -/

namespace Sys2Proof.Machine

section Stability

variable {p1 p2 pot maxDb : ℝ} {r : RawCoeffs ℝ} {t : SharedTerms ℝ}

/-- The stability test as the three sides of a triangle; `p2 < 1` follows from the other two sides. -/
theorem stabilityTest_iff : StabilityTest p1 p2 ↔ 0 < 1 + p2 ∧ 0 < 1 - p2 - p1 ∧ 0 < 1 - p2 + p1 := by
  rw [StabilityTest, abs_lt, abs_lt]
  constructor
  · rintro ⟨⟨h, -⟩, hlo, hhi⟩
    exact ⟨by linarith, by linarith, by linarith⟩
  · rintro ⟨h, hhi, hlo⟩
    exact ⟨⟨by linarith, by linarith⟩, by linarith, by linarith⟩

/-- A normalised tuple passes the stability test if its raw coefficients lie inside the triangle. -/
theorem stabilityTest_normalise (h : 0 < r.a0 + (r.b2 - r.a2)) (hhi : 0 < r.a0 - (r.b2 - r.a2) - (r.b1 - r.a1))
    (hlo : 0 < r.a0 - (r.b2 - r.a2) + (r.b1 - r.a1)) :
    StabilityTest ((normalise real r).p1 real) ((normalise real r).p2 real) := by
  have h0 : 0 < r.a0 := by linarith
  have hdiv : r.a0 / r.a0 = 1 := div_self h0.ne'
  rw [normalise_real_p1, normalise_real_p2, stabilityTest_iff, ← hdiv]
  simp only [← add_div, ← sub_div]
  exact ⟨div_pos h h0, div_pos hhi h0, div_pos hlo h0⟩

/-- A low shelf passes the stability test where its amplitude is below 4 and its frequency is low: each side of the
triangle is the amplitude times a positive factor, and a rest that is not negative. -/
theorem stabilityTest_rawLowShelf (hA0 : 0 < t.amp) (hA : t.amp < 4) (ha0 : 0 ≤ t.alpha) (ha : t.alpha ≤ 1 / 4)
    (hc0 : 9 / 10 ≤ t.cosw0) (hc : t.cosw0 ≤ 1) :
    StabilityTest ((normalise real (rawLowShelf real t)).p1 real) ((normalise real (rawLowShelf real t)).p2 real) := by
  have hroot : √t.amp ≤ 2 := Real.sqrt_le_iff.mpr ⟨by norm_num, by linarith⟩
  have hs0 : 0 ≤ 2 * √t.amp * t.alpha := by positivity
  have hs : 2 * √t.amp * t.alpha ≤ 1 := by
    calc 2 * √t.amp * t.alpha ≤ 2 * 2 * (1 / 4) := by gcongr
      _ = 1 := by norm_num
  have hAd0 : 0 ≤ t.amp * (1 - t.cosw0) := mul_nonneg hA0.le (by linarith)
  have hAd : t.amp * (1 - t.cosw0) ≤ 4 * (1 / 10) := mul_le_mul hA.le (by linarith) (by linarith) (by norm_num)
  obtain ⟨h1, h2⟩ := rawLowShelf_real_feedback t
  have h0 : (rawLowShelf real t).a0 = (t.amp + 1) + (t.amp - 1) * t.cosw0 + 2 * √t.amp * t.alpha := by
    rw [rawLowShelf_real]
  refine stabilityTest_normalise ?_ ?_ ?_
  · have hside := mul_pos hA0 (by linarith : 0 < 2 - 2 * √t.amp * t.alpha + (t.amp - 1) * (1 - t.cosw0))
    rw [h2, h0]
    linarith
  · have hside := mul_pos hA0 (by linarith : 0 < 2 + 2 * √t.amp * t.alpha - (3 * t.amp + 1) * (1 - t.cosw0))
    rw [h1, h2, h0]
    linarith
  · have hside := mul_pos hA0 (by linarith : 0 < 2 + 2 * √t.amp * t.alpha + (t.amp - 1) * (1 - t.cosw0))
    rw [h1, h2, h0]
    linarith

/-- A bell passes the stability test where its amplitude is below 2 and `alpha` at most one half. -/
theorem stabilityTest_rawPeaking (hA0 : 0 < t.amp) (hA : t.amp < 2) (ha0 : 0 ≤ t.alpha) (ha : t.alpha ≤ 1 / 2) :
    StabilityTest ((normalise real (rawPeaking real t)).p1 real) ((normalise real (rawPeaking real t)).p2 real) := by
  have hup0 : 0 ≤ t.alpha * t.amp := by positivity
  have hup : t.alpha * t.amp < 1 := by nlinarith
  have hdown0 : 0 ≤ t.alpha / t.amp := by positivity
  refine stabilityTest_normalise ?_ ?_ ?_ <;> rw [rawPeaking_real] <;> dsimp only <;> linarith

/-- No control reading asks for more than a band's maximum boost. -/
theorem tenPow_gainLaw_le (h : 0 < maxDb) : (10 : ℝ) ^ (gainLaw pot maxDb / 40) ≤ (10 : ℝ) ^ (maxDb / 40) := by
  have hg := (gainLaw_mem (pot := pot) h).2
  gcongr
  norm_num

end Stability

/-- Settles O34: the figures of the worked examples at full boost and full cut lie outside and inside the triangle by
far more than their tolerance, and the design at one half is an identity, whose `p1` and `p2` are zero. -/
theorem trebleBoostIsUnstable : Obligations.TrebleBoostIsUnstable := by
  refine ⟨?_, ?_, ?_⟩
  · obtain ⟨k, hk, -, -, hc2, -, hd2⟩ := trebleBoost_near
    have hp2 : 1 < k.p2 real := by
      rw [Coeffs.p2, real_sub]
      linarith [(abs_le.mp hc2).1, (abs_le.mp hd2).2]
    exact ⟨k, hk, hp2, fun ⟨habs, _⟩ => (abs_lt.mp habs).2.not_gt hp2⟩
  · obtain ⟨k, hk, -, h1, h2⟩ := design_real_zero_isIdentity ClampParams.default (bandShape .treble)
      (real.lit (bandF0 .treble)) (real.lit (bandQ .treble)) (fs := 48000) (by norm_num)
    exact ⟨k, by rw [designBand, gainDb_real_half, hk], by simp [StabilityTest, Coeffs.p1, Coeffs.p2, h1, h2]⟩
  · obtain ⟨k, hk, -, hc1, hc2, hd1, hd2⟩ := trebleCut_near
    rw [abs_le] at hc1 hc2 hd1 hd2
    refine ⟨k, hk, ?_⟩
    rw [stabilityTest_iff, Coeffs.p1, Coeffs.p2, real_sub, real_sub]
    exact ⟨by linarith, by linarith, by linarith⟩

/-- Settles O35: whatever the control reads, the amplitude is at most that of full boost, which is below 4 in the bass
band and below 2 in the mid band. -/
theorem bassAndMidAreStable : Obligations.BassAndMidAreStable := by
  intro pot
  refine ⟨⟨_, designBand_real_bass rfl, ?_⟩, _, designBand_real_mid rfl, ?_⟩
  · obtain ⟨⟨hAlpha, -⟩, ⟨hCos, -⟩⟩ := approx_bassTerms
    rw [abs_le] at hAlpha hCos
    have hBoost : (10 : ℝ) ^ ((15 : ℝ) / 40) < 4 := by
      have hroot : (10 : ℝ) ^ ((15 : ℝ) / 80) < 2 := by linarith [(abs_le.mp approx_shelfBoost.near).2]
      rw [tenPow_eq_sq]
      calc ((10 : ℝ) ^ ((15 : ℝ) / 80)) ^ 2 < 2 ^ 2 := by gcongr
        _ = 4 := by norm_num
    exact stabilityTest_rawLowShelf (by positivity) ((tenPow_gainLaw_le (by norm_num)).trans_lt hBoost)
      (by dsimp only; linarith) (by dsimp only; linarith) (by dsimp only; linarith) (Real.cos_le_one _)
  · obtain ⟨⟨hAlpha, -⟩, -⟩ := approx_midTerms
    rw [abs_le] at hAlpha
    have hBoost : (10 : ℝ) ^ ((12 : ℝ) / 40) < 2 := by
      linarith [(abs_le.mp approx_bellBoost.near).2]
    exact stabilityTest_rawPeaking (by positivity) ((tenPow_gainLaw_le (by norm_num)).trans_lt hBoost)
      (by dsimp only; linarith) (by dsimp only; linarith)

end Sys2Proof.Machine
